-- ==== Sys2Proof/Word.lean ====
section
/-! DEFINITION. The 32-bit word of registers and memory, and its two readings (spec 00_scope.md R9, R10, R14, R15). -/

namespace Sys2Proof

/-- A 32-bit pattern: an instruction word, a memory word or a register's value (R9, R10). -/
abbrev Word := BitVec 32

/-- A register index, 0 to 7 (R8, R23). -/
abbrev RegIx := Fin 8

/-- `bits32(i)`: the 32-bit pattern whose value is `i mod 2^32` (R15). -/
def bits32 (i : Int) : Word := BitVec.ofInt 32 i

/-- `toInt(v)`: the two's-complement reading of a 32-bit value (R15). -/
def wordToInt (v : Word) : Int := v.toInt

end Sys2Proof
end

