-- ==== Sys2Proof/Config.lean ====
section
/-! DEFINITION. The parameters of the core (spec 00_scope.md R7 to R13) and the one free value of the machine,
the reset draw of a memory word (10_state.md R35). -/

namespace Sys2Proof

/-- `MEM_WORDS`: the capacity of the memory in words (R7). -/
abbrev Config.memWords : Nat := 65536

/-- The smallest offset an I-type field holds (R11). -/
abbrev Config.offMin : Int := -32768

/-- The largest offset an I-type field holds (R11). -/
abbrev Config.offMax : Int := 32767

/-- The smallest value a 32-bit word holds, read as an integer (R15). -/
abbrev Config.wordMin : Int := -2147483648

/-- The largest value a 32-bit word holds, read as an integer (R15). -/
abbrev Config.wordMax : Int := 2147483647

/-- `LABEL_CHARS`: a label is matched by its first 6 characters; the assembler's parameter, unseen by the core (R12). -/
abbrev Config.labelChars : Nat := 6

/-- A source line's terminator stands within this many characters (30_encoding.md R89). -/
abbrev Config.lineChars : Nat := 1000

/-- The two values of the parameter `JALR_READING` (R13, 43_j_type.md R150). `sequential` is the normative one. -/
inductive JalrReading where
  | sequential
  | oldRegB
  deriving DecidableEq, Repr

/-- FREE VALUE. `Config.resetWord k a` is the word the memory holds at address `a` right after the reset numbered `k`,
where neither the load nor a store has written it: "an arbitrary 32-bit value chosen at reset" (10_state.md R35, D6).
It has no body, so nothing can be proved of its value. DESIGN CHOICE (log 2 and 3): the draws are numbered by reset and
address; safe, as every claim holds for every draw. -/
opaque Config.resetWord : Nat → Nat → Word

end Sys2Proof
end

