-- ==== Sys2Proof/Syntax.lean ====
section
/-! DEFINITION. The instruction set: one constructor per row of spec/opcode_table.json (30_encoding.md R63). -/

namespace Sys2Proof

/-- The eight instructions, with the fields their formats define (R64 to R67). `offset` is the sign-extended integer
of R70; `WellFormed` bounds it. `regA` of `jalr` is encoded and never read (R150). -/
inductive Instr where
  /-- `add regA regB destReg`, R-type, opcode 0 (R120). -/
  | add (regA regB destReg : RegIx)
  /-- `nor regA regB destReg`, R-type, opcode 1 (R121). -/
  | nor (regA regB destReg : RegIx)
  /-- `lw regA regB offset`, I-type, opcode 2 (R130). -/
  | lw (regA regB : RegIx) (offset : Int)
  /-- `sw regA regB offset`, I-type, opcode 3 (R131). -/
  | sw (regA regB : RegIx) (offset : Int)
  /-- `beq regA regB offset`, I-type, opcode 4 (R132). -/
  | beq (regA regB : RegIx) (offset : Int)
  /-- `jalr regA regB`, J-type, opcode 5 (R150). -/
  | jalr (regA regB : RegIx)
  /-- `halt`, O-type, opcode 6 (R160). -/
  | halt
  /-- `noop`, O-type, opcode 7 (R161). -/
  | noop
  deriving DecidableEq, Repr

end Sys2Proof
end

