-- ==== Sys2Proof/WellFormed.lean ====
section
/-! DEFINITION. When an instruction's operands fit its format's fields. -/

namespace Sys2Proof

/-- The offset fits the 16-bit two's-complement field: "range [-32768, 32767]" (30_encoding.md R65, 00_scope.md R11). -/
def offsetFits (offset : Int) : Bool := Config.offMin ≤ offset && offset ≤ Config.offMax

/-- An instruction is well formed when its offset, if it has one, fits the field. Register indices always fit: their
type has exactly the eight values of a 3-bit field (10_state.md R23). -/
def Instr.wf : Instr → Bool
  | .add _ _ _ => true
  | .nor _ _ _ => true
  | .lw _ _ offset => offsetFits offset
  | .sw _ _ offset => offsetFits offset
  | .beq _ _ offset => offsetFits offset
  | .jalr _ _ => true
  | .halt => true
  | .noop => true

end Sys2Proof
end

