-- ==== Sys2Proof/Decode.lean ====
section
/-! DEFINITION. The decoder block (spec 30_encoding.md R80 to R86), the core's decoding of a fetched word (R85,
40_cycle.md R102), and after them the encoder block (R71 to R79) and the encoding of one instruction. -/

namespace Sys2Proof

/-- The eight opcodes of the 3-bit field (R63). -/
inductive Opcode where
  | add | nor | lw | sw | beq | jalr | halt | noop
  deriving DecidableEq, Repr

/-- The four instruction formats (R64 to R67). -/
inductive Format where
  | R | I | J | O
  deriving DecidableEq, Repr

/-- The opcode a 3-bit pattern names: every pattern names one (R63). -/
def opcodeOfBits (b : BitVec 3) : Opcode :=
  match b.toFin with
  | 0 => .add
  | 1 => .nor
  | 2 => .lw
  | 3 => .sw
  | 4 => .beq
  | 5 => .jalr
  | 6 => .halt
  | 7 => .noop

/-- The 3-bit pattern of an opcode (R63). -/
def bitsOfOpcode : Opcode → BitVec 3
  | .add => 0b000#3
  | .nor => 0b001#3
  | .lw => 0b010#3
  | .sw => 0b011#3
  | .beq => 0b100#3
  | .jalr => 0b101#3
  | .halt => 0b110#3
  | .noop => 0b111#3

/-- `Class(opc)`: the format depends on the opcode alone (R63, R83). -/
def formatOf : Opcode → Format
  | .add | .nor => .R
  | .lw | .sw | .beq => .I
  | .jalr => .J
  | .halt | .noop => .O

/-- A register index read from its 3-bit field (R82). -/
def regOfBits (b : BitVec 3) : RegIx := ⟨b.toNat, b.isLt⟩

/-- The 3-bit field of a register index. -/
def bitsOfReg (r : RegIx) : BitVec 3 := BitVec.ofNat 3 r.val

/-- `sext_16`: the signed integer a 16-bit offset field holds (R70, 00_scope.md R15). -/
def sext16 (b : BitVec 16) : Int :=
  if b.getLsbD 15 then (b.toNat : Int) - 65536 else (b.toNat : Int)

/-- `bits16`: the low 16 bits of an integer's two's-complement form (R69). -/
def bits16 (i : Int) : BitVec 16 := BitVec.ofInt 16 i

/-- The decoder block's field outputs (R80). A field its word's format does not define is still computed (R82). -/
structure DecoderOut where
  opcode : BitVec 3
  cls : Format
  regA : RegIx
  regB : RegIx
  destReg : RegIx
  offset : Int
  upperZero : Bool
  deriving DecidableEq, Repr

/-- The decoder block: every field from its fixed bit positions, whatever the opcode (R81, R82). -/
def decoder (w : Word) : DecoderOut where
  opcode := w.extractLsb' 22 3
  cls := formatOf (opcodeOfBits (w.extractLsb' 22 3))
  regA := regOfBits (w.extractLsb' 19 3)
  regB := regOfBits (w.extractLsb' 16 3)
  destReg := regOfBits (w.extractLsb' 0 3)
  offset := sext16 (w.extractLsb' 0 16)
  upperZero := w.extractLsb' 25 7 == 0#7

/-- `decodeR(w)`: the fields of an R-type word, `none` where the opcode is not of that class (R84). -/
def decodeR (w : Word) : Option (BitVec 3 × RegIx × RegIx × RegIx) :=
  let d := decoder w
  if d.cls = .R then some (d.opcode, d.regA, d.regB, d.destReg) else none

/-- `decodeI(w)`: the fields of an I-type word, `none` where the opcode is not of that class (R84). -/
def decodeI (w : Word) : Option (BitVec 3 × RegIx × RegIx × Int) :=
  let d := decoder w
  if d.cls = .I then some (d.opcode, d.regA, d.regB, d.offset) else none

/-- `decodeJ(w)`: the fields of a J-type word, `none` where the opcode is not of that class (R84). -/
def decodeJ (w : Word) : Option (BitVec 3 × RegIx × RegIx) :=
  let d := decoder w
  if d.cls = .J then some (d.opcode, d.regA, d.regB) else none

/-- `decodeO(w)`: the opcode of an O-type word, `none` where the opcode is not of that class (R84). -/
def decodeO (w : Word) : Option (BitVec 3) :=
  let d := decoder w
  if d.cls = .O then some d.opcode else none

/-- Why the core finds no instruction in a word. -/
inductive DecodeError where
  /-- Bits 31:25 are not all zero: the only word pattern the core refuses (R85, R88, 60_exceptions.md R172). -/
  | upperBitsNonZero
  deriving DecidableEq, Repr

/-- The instruction a decoded word names, each opcode with the fields of its own format (40_cycle.md R102). -/
def instrOf (d : DecoderOut) : Instr :=
  match opcodeOfBits d.opcode with
  | .add => .add d.regA d.regB d.destReg
  | .nor => .nor d.regA d.regB d.destReg
  | .lw => .lw d.regA d.regB d.offset
  | .sw => .sw d.regA d.regB d.offset
  | .beq => .beq d.regA d.regB d.offset
  | .jalr => .jalr d.regA d.regB
  | .halt => .halt
  | .noop => .noop

/-- The core's decoding of a fetched word: the check of bits 31:25, then dispatch on the opcode, with the unused bits
of the format ignored (40_cycle.md R102, R85, R86). -/
def decode (w : Word) : Except DecodeError Instr :=
  let d := decoder w
  if d.upperZero then .ok (instrOf d) else .error .upperBitsNonZero

/-- The instruction the decoder reads from the table's numbering of an instruction's bits: one 32-bit word, bit 0 its
least significant bit, the bits above `nbits` zero (R60, R14). -/
def decodeTableWord (nbits w : Nat) : Option Instr :=
  match decode (BitVec.ofNat 32 (w % 2 ^ nbits)) with
  | .ok i => some i
  | .error _ => none

/-- The R-type layout (R64). -/
def packR (opc a b d : BitVec 3) : Word := 0#7 ++ opc ++ a ++ b ++ 0#13 ++ d

/-- The I-type layout (R65). -/
def packI (opc a b : BitVec 3) (off : BitVec 16) : Word := 0#7 ++ opc ++ a ++ b ++ off

/-- The J-type layout (R66). -/
def packJ (opc a b : BitVec 3) : Word := 0#7 ++ opc ++ a ++ b ++ 0#16

/-- The O-type layout (R67). -/
def packO (opc : BitVec 3) : Word := 0#7 ++ opc ++ 0#22

/-- The word of a well-formed instruction, from the layouts of R64 to R67 and the opcodes of R63. -/
def encode : Instr → Word
  | .add a b d => packR 0b000#3 (bitsOfReg a) (bitsOfReg b) (bitsOfReg d)
  | .nor a b d => packR 0b001#3 (bitsOfReg a) (bitsOfReg b) (bitsOfReg d)
  | .lw a b off => packI 0b010#3 (bitsOfReg a) (bitsOfReg b) (bits16 off)
  | .sw a b off => packI 0b011#3 (bitsOfReg a) (bitsOfReg b) (bits16 off)
  | .beq a b off => packI 0b100#3 (bitsOfReg a) (bitsOfReg b) (bits16 off)
  | .jalr a b => packJ 0b101#3 (bitsOfReg a) (bitsOfReg b)
  | .halt => packO 0b110#3
  | .noop => packO 0b111#3

/-- The encoder's selector input: an instruction's opcode, or `.fill` (R71). -/
inductive EncoderSel where
  | instr (opc : Opcode)
  | fill
  deriving DecidableEq, Repr

/-- The encoder's outputs (R71). Where `err` is true, `word` is unspecified (R78). -/
structure EncoderOut where
  word : Word
  err : Bool
  deriving DecidableEq, Repr

/-- A register operand's field: the operand mod 8, masked and not checked (R72). -/
def regField (r : Int) : BitVec 3 := BitVec.ofInt 3 r

/-- A `.fill` value fits the 32-bit word (R77). -/
def fillFits (v : Int) : Bool := Config.wordMin ≤ v && v ≤ Config.wordMax

/-- The encoder block (R71, R73 to R77): combinational, over integer operands. `draw` is the word it emits where the
spec leaves the word unspecified (R78); a claim about the encoder holds for every `draw`. DESIGN CHOICE (log 12), safe. -/
def encoder (draw : Word) (sel : EncoderSel) (arg0 arg1 arg2 : Int) : EncoderOut :=
  match sel with
  | .fill =>
    if fillFits arg0 then ⟨bits32 arg0, false⟩ else ⟨draw, true⟩
  | .instr opc =>
    match formatOf opc with
    | .R => ⟨packR (bitsOfOpcode opc) (regField arg0) (regField arg1) (regField arg2), false⟩
    | .I =>
      if offsetFits arg2 then ⟨packI (bitsOfOpcode opc) (regField arg0) (regField arg1) (bits16 arg2), false⟩
      else ⟨draw, true⟩
    | .J => ⟨packJ (bitsOfOpcode opc) (regField arg0) (regField arg1), false⟩
    | .O => ⟨packO (bitsOfOpcode opc), false⟩

end Sys2Proof
end

