-- ==== Sys2Proof/Machine/State.lean ====
section
/-! DEFINITION. The state of the core as plain data (spec 10_state.md), the ways a step can stop, and the state after
reset. -/

namespace Sys2Proof.Machine

/-- The fault causes with the information each records (60_exceptions.md R171). -/
inductive FaultCause where
  /-- Fetch with `pc` outside `[0, 65535]`; records the pc (R173). -/
  | fetchAddressFault (pc : Int)
  /-- The fetched word has bits 31:25 not all zero; records the pc and the word (R172). -/
  | invalidOpcode (pc : Int) (w : Word)
  /-- `lw` or `sw` with an effective address outside `[0, 65535]`; records the pc and the address (R174). -/
  | memoryAddressFault (pc ea : Int)
  /-- The input has more than 65536 words; records the index of the first that does not fit (70_reset_and_hazards.md R192). -/
  | loadOverflow (index : Nat)
  /-- An input line is no decimal integer of 32 bits; records the line's index (R191). -/
  | loadValueRange (index : Nat)
  deriving DecidableEq, Repr

/-- The phases of the core's state machine (R27, 40_cycle.md R100). -/
inductive Phase where
  | loading
  | running
  | halted
  | faulted (cause : FaultCause)
  deriving DecidableEq, Repr

/-- One line of text, without its terminator. -/
abbrev Line := List Char

/-- The memory words that the load or a store has written: (address, word) pairs with strictly rising addresses. An
unlisted address holds its reset draw (R26, R35). `Memory.wf` in Machine/Ops.lean states the form. DESIGN CHOICE (log 1, 2): the
cells are words, as R42 asks, and a word equal to its draw stays listed; unsafe for a claim that two such lists differ. -/
abbrev Memory := List (Nat × Word)

/-- Everything the spec gives the core. The last three fields are the model's own: the host's load input, the parameter
`JALR_READING` and the number of the reset whose draws the memory holds. -/
structure State where
  /-- The state machine's phase (R27). -/
  phase : Phase
  /-- The program counter, an unbounded integer (R24, R25). -/
  pc : Int
  /-- The registers r0 to r7; none is hardwired (R20, R21). -/
  x : Vector Word 8
  /-- The 65536-word memory of instructions and data (R26). -/
  mem : Memory
  /-- The number of words loaded at start-up (R28). -/
  loadedCount : Nat
  /-- The number of instructions completed (R29). -/
  instrCount : Nat
  /-- The input lines the load has still to read (70_reset_and_hazards.md R190). DESIGN CHOICE (log 4). -/
  input : List Line
  /-- The parameter `JALR_READING`, which no step changes (00_scope.md R13). DESIGN CHOICE (log 7): held in the state. -/
  jalrReading : JalrReading
  /-- The reset this run began with, which no step changes: it names the draws of R35. DESIGN CHOICE (log 3). -/
  drawSeed : Nat
  deriving DecidableEq, Repr

/-- Why the machine has no step. Both are the spec's own: `Halted` and `Faulted` "are terminal: no transition leaves
them, and in them the core has no step" (40_cycle.md R100). -/
inductive Fault where
  /-- Raised by `step` alone, in phase Halted. Safe: the spec gives no step there. -/
  | stepAfterHalt
  /-- Raised by `step` alone, in phase Faulted, with the cause held there. Safe: the spec gives no step there. -/
  | stepAfterFault (cause : FaultCause)
  deriving DecidableEq, Repr

/-- Why an instruction has no meaning in the model. -/
inductive Refusal where
  /-- Raised by an arm of `exec` whose instruction has no meaning yet. No arm raises it. Safe: it claims nothing. -/
  | notModelled (mnemonic : String)
  deriving DecidableEq, Repr

/-- Set the phase. -/
def State.setPhase (s : State) (p : Phase) : State := { s with phase := p }

/-- Set the program counter. -/
def State.setPc (s : State) (t : Int) : State := { s with pc := t }

/-- Set the register file. -/
def State.setX (s : State) (v : Vector Word 8) : State := { s with x := v }

/-- Set the memory. -/
def State.setMem (s : State) (m : Memory) : State := { s with mem := m }

/-- Set the count of completed instructions. -/
def State.setInstrCount (s : State) (n : Nat) : State := { s with instrCount := n }

/-- The core at start-up, before it has read its input: phase Loading (R36), registers 0 (R32), memory all draws (R35),
`JALR_READING` at its normative value (00_scope.md R13). Nothing is in the input; `pc`, `loadedCount` and `instrCount`
already hold the value they have when Running begins (R33, R37). DESIGN CHOICE (log 3, 4, 5, 7); unsafe: the values of
those three during Loading are the model's. -/
def State.reset : State where
  phase := .loading
  pc := 0
  x := Vector.replicate 8 0#32
  mem := []
  loadedCount := 0
  instrCount := 0
  input := []
  jalrReading := .sequential
  drawSeed := 0

end Sys2Proof.Machine
end

