-- ==== Sys2Proof/Machine/Ops.lean ====
section
/-! DEFINITION. The operations every meaning is built from: registers, memory words, the three access primitives, the
fault, and the completion of an instruction. -/

namespace Sys2Proof.Machine

/-- `x[i]`: the value of register `i` (00_scope.md R16). -/
def readReg (s : State) (i : RegIx) : Word := s.x[i]

/-- `x[i] <- v`. Every register is written, r0 too (10_state.md R21). -/
def writeReg (s : State) (i : RegIx) (v : Word) : State := s.setX (s.x.set i v)

/-- The word listed at an address, if the load or a store has written one. -/
def Memory.lookup : Memory → Nat → Option Word
  | [], _ => none
  | (b, w) :: m, a => if a = b then some w else Memory.lookup m a

/-- Write one word, keeping the addresses strictly rising. -/
def Memory.store : Memory → Nat → Word → Memory
  | [], a, v => [(a, v)]
  | (b, w) :: m, a, v =>
    if a < b then (a, v) :: (b, w) :: m
    else if a = b then (a, v) :: m
    else (b, w) :: Memory.store m a v

/-- Every address of `m` is at least `lo` and below the capacity, and the addresses strictly rise. -/
def Memory.sortedFrom : Nat → Memory → Bool
  | _, [] => true
  | lo, (a, _) :: m => decide (lo ≤ a) && decide (a < Config.memWords) && Memory.sortedFrom (a + 1) m

/-- The canonical form: strictly rising addresses, all of them addresses of the memory (10_state.md R26). -/
def Memory.wf (m : Memory) : Bool := Memory.sortedFrom 0 m

/-- The word at a word address: the one written last, or else the reset draw (10_state.md R35, 20_memory.md R50). -/
def wordAt (s : State) (a : Nat) : Word :=
  match Memory.lookup s.mem a with
  | some w => w
  | none => Config.resetWord s.drawSeed a

/-- The addressable range `[0, MEM_WORDS - 1]` (20_memory.md R40). -/
def inMemory (addr : Int) : Bool := 0 ≤ addr && addr < Config.memWords

/-- `MemRead(addr, 1)` (20_memory.md R47). -/
def memRead (s : State) (addr : Int) : Except FaultCause Word :=
  if inMemory addr then .ok (wordAt s addr.toNat) else .error (.memoryAddressFault s.pc addr)

/-- `MemWrite(addr, 1, v)` (20_memory.md R48). -/
def memWrite (s : State) (addr : Int) (v : Word) : Except FaultCause State :=
  if inMemory addr then .ok (s.setMem (Memory.store s.mem addr.toNat v))
  else .error (.memoryAddressFault s.pc addr)

/-- `Fetch(addr)` at the program counter (20_memory.md R49). -/
def fetch (s : State) : Except FaultCause Word :=
  if inMemory s.pc then .ok (wordAt s s.pc.toNat) else .error (.fetchAddressFault s.pc)

/-- Fetch and decode, in that order, so that the first failing check is the fault (40_cycle.md R102, 60_exceptions.md
R176). -/
def fetchInstr (s : State) : Except FaultCause Instr :=
  match fetch s with
  | .error c => .error c
  | .ok w =>
    match decode w with
    | .error .upperBitsNonZero => .error (.invalidOpcode s.pc w)
    | .ok i => .ok i

/-- `raise`: the core enters the terminal phase `Faulted(cause, info)` and nothing else changes (60_exceptions.md R175,
00_scope.md R18). DEDUCED (log 8), safe: the fault is a state of the machine, so this is a next state. -/
def raise (c : FaultCause) (s : State) : Host.Outcome State Fault Refusal := .next (s.setPhase (.faulted c))

/-- An instruction other than `halt` completes: `pc <- pc + 1` on whatever value `pc` then holds, and the count rises
(40_cycle.md R103, R104). -/
def retire (s : State) : Host.Outcome State Fault Refusal :=
  .next ((s.setPc (s.pc + 1)).setInstrCount (s.instrCount + 1))

end Sys2Proof.Machine
end

