-- ==== Sys2Proof/Machine/Flags.lean ====
section
/-! DEFINITION. Conditions. "The core has no flags, condition codes or predicate registers" (spec 10_state.md R30), so
this file holds the one condition an instruction tests. -/

namespace Sys2Proof.Machine

/-- `x[regA] == x[regB]`: equality of the 32-bit patterns (42_i_type.md R132, 00_scope.md R15). -/
def regsEqual (s : State) (regA regB : RegIx) : Bool := readReg s regA == readReg s regB

end Sys2Proof.Machine
end

