-- ==== Sys2Proof/Machine/Operands.lean ====
section
/-! DEFINITION. The operand forms: registers (R16), the one data addressing mode (42_i_type.md R133), the PC-relative
displacement (R132) and the two readings of `jalr` (43_j_type.md R150). -/

namespace Sys2Proof.Machine

/-- `EA = toInt(x[regA]) + offset`, exact, with no wrap (R133). -/
def effectiveAddress (s : State) (regA : RegIx) (offset : Int) : Int := wordToInt (readReg s regA) + offset

/-- The value `beq` leaves in `pc` before the step's increment (R132). -/
def branchPc (s : State) (taken : Bool) (offset : Int) : Int := if taken then s.pc + offset else s.pc

/-- The link value of `jalr`, `bits32(pc + 1)` (R150). -/
def linkWord (s : State) : Word := bits32 (s.pc + 1)

/-- `jalr` under the normative reading: write the link, then read it back (R150, `JALR_READING = sequential`). -/
def jalrSequential (s : State) (regB : RegIx) : State :=
  let linked := writeReg s regB (linkWord s)
  linked.setPc (wordToInt (readReg linked regB) - 1)

/-- `jalr` under the alternative reading: the target is the register's value before the instruction (R150,
`JALR_READING = old_regB`). -/
def jalrOldRegB (s : State) (regB : RegIx) : State :=
  (writeReg s regB (linkWord s)).setPc (wordToInt (readReg s regB) - 1)

end Sys2Proof.Machine
end

