-- ==== Sys2Proof/Machine/IType.lean ====
section
/-! DEFINITION. The I-type instructions (spec 42_i_type.md). -/

namespace Sys2Proof.Machine

/-- `lw`: the whole word at the effective address into `regB`, or `MemoryAddressFault` (R130). -/
def execLw (regA regB : RegIx) (offset : Int) (s : State) : Host.Outcome State Fault Refusal :=
  match memRead s (effectiveAddress s regA offset) with
  | .ok v => retire (writeReg s regB v)
  | .error c => raise c s

/-- `sw`: the whole word of `regB` to the effective address, or `MemoryAddressFault` (R131). -/
def execSw (regA regB : RegIx) (offset : Int) (s : State) : Host.Outcome State Fault Refusal :=
  match memWrite s (effectiveAddress s regA offset) (readReg s regB) with
  | .ok t => retire t
  | .error c => raise c s

/-- `beq`: when the registers are equal the offset is added to `pc`, and the step's increment comes on top (R132,
40_cycle.md R103). -/
def execBeq (regA regB : RegIx) (offset : Int) (s : State) : Host.Outcome State Fault Refusal :=
  retire (s.setPc (branchPc s (regsEqual s regA regB) offset))

end Sys2Proof.Machine
end

