-- ==== Sys2Proof/Machine/JType.lean ====
section
/-! DEFINITION. The J-type instruction (spec 43_j_type.md). -/

namespace Sys2Proof.Machine

/-- `jalr`, under the reading the state's parameter names; `regA` is encoded but not read (R150, R13). -/
def execJalr (_regA regB : RegIx) (s : State) : Host.Outcome State Fault Refusal :=
  match s.jalrReading with
  | .sequential => retire (jalrSequential s regB)
  | .oldRegB => retire (jalrOldRegB s regB)

end Sys2Proof.Machine
end

