-- ==== Sys2Proof/Machine/OType.lean ====
section
/-! DEFINITION. The O-type instructions (spec 44_o_type.md). -/

namespace Sys2Proof.Machine

/-- `halt`: counted, then phase Halted, with `pc` left at the `halt` (R160, 40_cycle.md R103). -/
def execHalt (s : State) : Host.Outcome State Fault Refusal :=
  .next ((s.setInstrCount (s.instrCount + 1)).setPhase .halted)

/-- `noop`: nothing but the advance of `pc` and of the count (R161). -/
def execNoop (s : State) : Host.Outcome State Fault Refusal := retire s

end Sys2Proof.Machine
end

