-- ==== Sys2Proof/Machine/RType.lean ====
section
/-! DEFINITION. The R-type instructions (spec 41_r_type.md). -/

namespace Sys2Proof.Machine

/-- `add`: the sum reduced mod 2^32, with no fault and no flag (R120). -/
def execAdd (regA regB destReg : RegIx) (s : State) : Host.Outcome State Fault Refusal :=
  retire (writeReg s destReg (bits32 (wordToInt (readReg s regA) + wordToInt (readReg s regB))))

/-- `nor`: bit by bit, 1 exactly where both sources are 0 (R121). -/
def execNor (regA regB destReg : RegIx) (s : State) : Host.Outcome State Fault Refusal :=
  retire (writeReg s destReg (~~~(readReg s regA ||| readReg s regB)))

end Sys2Proof.Machine
end

