-- ==== Sys2Proof/Machine/Dispatch.lean ====
section
/-! DEFINITION. The dispatch on the instruction: one arm per row of spec/opcode_table.json (40_cycle.md R102). -/

namespace Sys2Proof.Machine

/-- The whole effect of one instruction, its advance of `pc` and of the count included. DESIGN CHOICE (log 10), unsafe for
a claim about `exec` in a phase other than Running: `exec` does not look at the phase, and `step` calls it in Running alone. -/
def exec (i : Instr) (s : State) : Host.Outcome State Fault Refusal :=
  match i with
  | .add regA regB destReg => Sys2Proof.Machine.execAdd regA regB destReg s
  | .nor regA regB destReg => Sys2Proof.Machine.execNor regA regB destReg s
  | .lw regA regB offset => Sys2Proof.Machine.execLw regA regB offset s
  | .sw regA regB offset => Sys2Proof.Machine.execSw regA regB offset s
  | .beq regA regB offset => Sys2Proof.Machine.execBeq regA regB offset s
  | .jalr regA regB => Sys2Proof.Machine.execJalr regA regB s
  | .halt => Sys2Proof.Machine.execHalt s
  | .noop => Sys2Proof.Machine.execNoop s

end Sys2Proof.Machine
end

