-- ==== Sys2Proof/Machine/Decimal.lean ====
section
/-! DEFINITION. Decimal text, as the load input and the assembler's output spell words (spec 70_reset_and_hazards.md
R191, 30_encoding.md R92, R98; decision D25). -/

namespace Sys2Proof.Machine

/-- The value of a decimal digit. -/
def digitValue (c : Char) : Option Nat :=
  if 48 ≤ c.toNat ∧ c.toNat ≤ 57 then some (c.toNat - 48) else none

/-- The number a run of decimal digits spells after a prefix of value `acc`, `none` at any other character. -/
def digitsValue : Line → Nat → Option Nat
  | [], acc => some acc
  | c :: cs, acc =>
    match digitValue c with
    | some d => digitsValue cs (10 * acc + d)
    | none => none

/-- One or more decimal digits. DEDUCED (log 11), unsafe: the spec does not say that none is no number. -/
def naturalValue : Line → Option Nat
  | [] => none
  | c :: cs => digitsValue (c :: cs) 0

/-- `DecimalValue(L)`: the integer the line spells, an optional sign followed by decimal digits (R191, R92). -/
def decimalValue : Line → Option Int
  | [] => none
  | c :: cs =>
    if c = '-' then (naturalValue cs).map (fun n => -(n : Int))
    else if c = '+' then (naturalValue cs).map (fun n => (n : Int))
    else (naturalValue (c :: cs)).map (fun n => (n : Int))

/-- The decimal digits of `n` before the text `acc`; `fuel` bounds their number. -/
def digitsBefore : Nat → Nat → Line → Line
  | 0, _, acc => acc
  | fuel + 1, n, acc =>
    if n < 10 then Char.ofNat (48 + n) :: acc
    else digitsBefore fuel (n / 10) (Char.ofNat (48 + n % 10) :: acc)

/-- The decimal digits of a number below 10^10, which every 32-bit value's magnitude is. -/
def naturalLine (n : Nat) : Line := digitsBefore 10 n []

/-- The line the assembler writes for a word: the decimal of `toInt(w)` (R98). -/
def decimalLine (w : Word) : Line :=
  if wordToInt w < 0 then '-' :: naturalLine (wordToInt w).natAbs else naturalLine (wordToInt w).natAbs

end Sys2Proof.Machine
end

