-- ==== Sys2Proof/Machine/Load.lean ====
section
/-! DEFINITION. The reset and load sequence (spec 70_reset_and_hazards.md R190 to R192). -/

namespace Sys2Proof.Machine

/-- The value of an input line, where it spells a decimal integer of 32 bits (R191, D16). -/
def lineWord (l : Line) : Option Word :=
  match decimalValue l with
  | some v => if fillFits v then some (bits32 v) else none
  | none => none

/-- The loop of `Reset(input)`: what is written, how many words, and the fault that stopped it, if one did (R190). -/
def loadLines : List Line → Nat → Memory → Memory × Nat × Option FaultCause
  | [], n, m => (m, n, none)
  | l :: ls, n, m =>
    if n = Config.memWords then (m, n, some (.loadOverflow n))
    else
      match lineWord l with
      | none => (m, n, some (.loadValueRange n))
      | some w => loadLines ls (n + 1) (Memory.store m n w)

/-- `Reset(input)` from phase Loading, in one step: registers 0, memory all draws, the input's words at addresses from
0, and then Running or Faulted (R190, 40_cycle.md R100). A load that fails leaves the words it had written, and leaves
`loadedCount`, `instrCount` and `pc` unassigned, as the sequence does. DESIGN CHOICE (log 4): one step; safe. DEDUCED
(log 6): the state a failed load leaves; unsafe. -/
def load (s : State) : Host.Outcome State Fault Refusal :=
  let started := { s with x := Vector.replicate 8 0#32, input := [] }
  match loadLines s.input 0 [] with
  | (m, n, none) => .next { started with mem := m, loadedCount := n, instrCount := 0, pc := 0, phase := .running }
  | (m, _, some c) => raise c (started.setMem m)

/-- The core at start-up with an input to load, of the reset numbered `k`, under a reading of `jalr` (R190, R193). -/
def State.boot (k : Nat) (reading : JalrReading) (input : List Line) : State :=
  { State.reset with input := input, jalrReading := reading, drawSeed := k }

end Sys2Proof.Machine
end

