-- ==== Sys2Proof/Machine/Step.lean ====
section
/-! DEFINITION. One step of the core (spec 40_cycle.md R100 to R104). -/

namespace Sys2Proof.Machine

/-- One step: the load from phase Loading, one whole instruction from phase Running, and none from the terminal phases
(R100, R101, R102). -/
def step (s : State) : Host.Outcome State Fault Refusal :=
  match s.phase with
  | .loading => load s
  | .running =>
    match fetchInstr s with
    | .ok i => exec i s
    | .error c => raise c s
  | .halted => .fault .stepAfterHalt
  | .faulted c => .fault (.stepAfterFault c)

/-- `s` made to run the word `w` at its very next step: Running, with the word stored at `pc`. A `pc` outside the memory,
from which nothing can be fetched, is set to the entry address 0. DESIGN CHOICE (log 9), safe: no step uses it. -/
def State.withFetchWord (s : State) (nbits w : Nat) : State :=
  let at0 := if inMemory s.pc then s else s.setPc 0
  (at0.setMem (Memory.store at0.mem at0.pc.toNat (BitVec.ofNat 32 (w % 2 ^ nbits)))).setPhase .running

end Sys2Proof.Machine
end

