-- ==== Sys2Proof/Machine/Assembler.lean ====
section
/-! DEFINITION. The assembler-side contract that fixes what the encoder block receives (spec 30_encoding.md R89 to R99).
The assembler is outside the block (00_scope.md R6); the core uses nothing of this file but the words it produces. -/

namespace Sys2Proof.Asm

open Sys2Proof.Machine (Line decimalValue decimalLine)

/-- A field of a source line. -/
abbrev Token := List Char

/-- Fields are "separated by horizontal whitespace" (R89). -/
def isBlank (c : Char) : Bool := c == ' ' || c == '\t'

/-- The fields of a line, after `word`, the characters of the field under way, last first. -/
def tokensFrom (word : Token) : Line → List Token
  | [] => if word = [] then [] else [word.reverse]
  | c :: cs =>
    if isBlank c then (if word = [] then tokensFrom [] cs else word.reverse :: tokensFrom [] cs)
    else tokensFrom (c :: word) cs

/-- The fields of a line (R89). -/
def tokens (l : Line) : List Token := tokensFrom [] l

/-- The reserved mnemonics and the encoder's selection for each (R90). -/
def selOf (t : Token) : Option EncoderSel :=
  if t = ['a', 'd', 'd'] then some (.instr .add)
  else if t = ['n', 'o', 'r'] then some (.instr .nor)
  else if t = ['l', 'w'] then some (.instr .lw)
  else if t = ['s', 'w'] then some (.instr .sw)
  else if t = ['b', 'e', 'q'] then some (.instr .beq)
  else if t = ['j', 'a', 'l', 'r'] then some (.instr .jalr)
  else if t = ['h', 'a', 'l', 't'] then some (.instr .halt)
  else if t = ['n', 'o', 'o', 'p'] then some (.instr .noop)
  else if t = ['.', 'f', 'i', 'l', 'l'] then some .fill
  else none

/-- One source line, `[label] [opcode] [arg0] [arg1] [arg2]` (R89). An absent field is the empty token. -/
structure SourceLine where
  label : Option Token
  mnemonic : Token
  arg0 : Token
  arg1 : Token
  arg2 : Token
  deriving DecidableEq, Repr

/-- A line from its fields: the first is a label exactly where it is no reserved mnemonic (R89). A line without fields
is no source line (R96). DESIGN CHOICE (log 14), unsafe: absent and surplus fields are not in the spec. DESIGN CHOICE
(log 18), unsafe: a label may be of any length and of any characters but blank and tab, a decimal number among them; the
spec says that a label has at most 6 characters and gives neither the outcome of a longer one nor a character set. -/
def sourceLine (ts : List Token) : Option SourceLine :=
  let after (label : Option Token) (rest : List Token) : SourceLine :=
    ⟨label, rest.getD 0 [], rest.getD 1 [], rest.getD 2 [], rest.getD 3 []⟩
  match ts with
  | [] => none
  | t :: rest => if (selOf t).isSome then some (after none (t :: rest)) else some (after (some t) rest)

/-- A label is matched by its first 6 characters (R96, 00_scope.md R12). DESIGN CHOICE (log 18), unsafe: so is a label
longer than 6 characters, which is no error. -/
def labelKey (t : Token) : Token := t.take Config.labelChars

/-- Pass 1: every label with its address, the 0-based index of its line (R96). -/
def labelTable (program : List SourceLine) : List (Token × Nat) :=
  program.zipIdx.filterMap (fun p => p.1.label.map (fun t => (labelKey t, p.2)))

/-- The address of a label, `none` where it is undefined (R96). -/
def labelAddress : List (Token × Nat) → Token → Option Nat
  | [], _ => none
  | (k, a) :: table, t => if labelKey t = k then some a else labelAddress table t

/-- The operand of `.fill`: an integer literal, or a label's address (R92, R94): "when not a literal integer", so a label
that spells an integer is never one of these (log 18). -/
def fillOperand (table : List (Token × Nat)) (t : Token) : Option Int :=
  match decimalValue t with
  | some v => some v
  | none => (labelAddress table t).map (fun k => (k : Int))

/-- The third operand of `beq` at address `a`: a literal as given, or a label's distance from `a + 1` (R92, R93). -/
def branchOperand (table : List (Token × Nat)) (a : Nat) (t : Token) : Option Int :=
  match decimalValue t with
  | some v => some v
  | none => (labelAddress table t).map (fun k => (k : Int) - ((a : Int) + 1))

/-- What the encoder receives for the line at address `a`: its selection and the operands in assembler order (R91).
`none` where the mnemonic is unknown or an operand the format uses does not resolve (R90, R92, R95). -/
def resolve (table : List (Token × Nat)) (a : Nat) (l : SourceLine) : Option (EncoderSel × Int × Int × Int) :=
  match selOf l.mnemonic with
  | none => none
  | some .fill => (fillOperand table l.arg0).map (fun v => (.fill, v, 0, 0))
  | some (.instr opc) =>
    match formatOf opc with
    | .O => some (.instr opc, 0, 0, 0)
    | .J =>
      match decimalValue l.arg0, decimalValue l.arg1 with
      | some r0, some r1 => some (.instr opc, r0, r1, 0)
      | _, _ => none
    | .R =>
      match decimalValue l.arg0, decimalValue l.arg1, decimalValue l.arg2 with
      | some r0, some r1, some r2 => some (.instr opc, r0, r1, r2)
      | _, _, _ => none
    | .I =>
      let third := if opc = .beq then branchOperand table a l.arg2 else decimalValue l.arg2
      match decimalValue l.arg0, decimalValue l.arg1, third with
      | some r0, some r1, some off => some (.instr opc, r0, r1, off)
      | _, _, _ => none

/-- Pass 2, one line: the encoder's outputs. A line with an error has `err` set and the word `draw`, which the spec
leaves unspecified (R78, R99). -/
def assembleLine (draw : Word) (table : List (Token × Nat)) (a : Nat) (l : SourceLine) : EncoderOut :=
  match resolve table a l with
  | none => ⟨draw, true⟩
  | some (sel, arg0, arg1, arg2) => encoder draw sel arg0 arg1 arg2

/-- Why the assembler gives no output at all. -/
inductive Failure where
  /-- A line has no terminator within 1000 characters: `LineTooLongError`, fatal (R89). For a last line that ends with
  the file see `assemble` (log 19). -/
  | lineTooLong
  /-- Two labels share their first 6 characters: ambiguous, so no output is defined (R96, 93_implementation_defined.md U3). -/
  | ambiguousLabels
  deriving DecidableEq, Repr

/-- The two passes over a source text: one output for each source line, in order (R96, R98, R99). `draw a` is the word
of the line at address `a` where that line has an error. DEDUCED (log 14), unsafe: the terminator counts among the 1000
characters. DESIGN CHOICE (log 19), unsafe: a last line that ends with the file, without a newline, is taken as if one
followed it; R89 by its letter makes it fatal, by the error's name does not. -/
def assemble (draw : Nat → Word) (source : List Line) : Except Failure (List EncoderOut) :=
  if source.any (fun l => decide (Config.lineChars ≤ l.length)) then .error .lineTooLong
  else
    let program := source.filterMap (fun l => sourceLine (tokens l))
    let table := labelTable program
    if (table.map Prod.fst).Nodup then
      .ok (program.zipIdx.map (fun p => assembleLine (draw p.2) table p.2 p.1))
    else .error .ambiguousLabels

/-- The output file: each word's line in decimal (R98). -/
def outputLines (outs : List EncoderOut) : List Line := outs.map (fun o => decimalLine o.word)

end Sys2Proof.Asm
end

