-- ==== Sys2Proof/Machine/Observe.lean ====
section
/-! DEFINITION. What the core exposes at an instruction boundary (spec 40_cycle.md R105) and the numbers of the fault
causes (60_exceptions.md R171). -/

namespace Sys2Proof.Machine

/-- The record `Obs(s)` (R105). -/
structure Obs where
  pc : Int
  words : List Word
  x : Vector Word 8
  instrCount : Nat
  deriving DecidableEq, Repr

/-- `Obs(s) = (s.pc, s.mem[0 .. s.loadedCount - 1], s.x[0..7], s.instrCount)` (R105). -/
def State.obs (s : State) : Obs where
  pc := s.pc
  words := (List.range s.loadedCount).map (wordAt s)
  x := s.x
  instrCount := s.instrCount

/-- What is reported at an observation point: the record, and whether the "machine halted" indication goes with it. -/
structure Report where
  obs : Obs
  machineHalted : Bool
  deriving DecidableEq, Repr

/-- The report at a state: at every Running state before its fetch, and at the Halted state with the indication. A
Loading or a Faulted state is reported nowhere (R105, 60_exceptions.md R175). DESIGN CHOICE (log 13), safe: a report is a
function of the state, no output of a step. -/
def State.report (s : State) : Option Report :=
  match s.phase with
  | .loading => none
  | .running => some ⟨s.obs, false⟩
  | .halted => some ⟨s.obs, true⟩
  | .faulted _ => none

/-- The numeric code of a fault cause (R171, D26). -/
def FaultCause.code : FaultCause → Nat
  | .fetchAddressFault _ => 1
  | .invalidOpcode _ _ => 2
  | .memoryAddressFault _ _ => 3
  | .loadOverflow _ => 4
  | .loadValueRange _ => 5

end Sys2Proof.Machine
end

