-- ==== Sys2Proof/Safety.lean ====
section
/-! DEFINITION. What a run is, how it can end, and the invariant of the state that every step keeps. -/

namespace Sys2Proof.Machine

/-- The state an outcome leads to, if it leads to one. -/
def nextState (o : Host.Outcome State Fault Refusal) : Option State :=
  match o with
  | .next t => some t
  | .fault _ => none
  | .refused _ => none

/-- `Reaches s k t`: `k` steps lead from `s` to `t`. -/
def Reaches (s : State) (k : Nat) (t : State) : Prop := Host.Core.run Sys2Proof.core k s = .next t

/-- The reports of a run of at most `k` steps, in order: one at each observation point (40_cycle.md R105). -/
def State.reports : Nat → State → List Report
  | 0, s => s.report.toList
  | k + 1, s =>
    match step s with
    | .next t => s.report.toList ++ State.reports k t
    | .fault _ => s.report.toList
    | .refused _ => s.report.toList

/-- A phase that no transition leaves (40_cycle.md R100). -/
def Phase.terminal : Phase → Bool
  | .loading => false
  | .running => false
  | .halted => true
  | .faulted _ => true

/-- The only normal end of a run: "Only `Halted` is a normal end" (40_cycle.md R108). -/
def EndsNormally (s : State) : Prop := ∃ k t, Reaches s k t ∧ t.phase = .halted

/-- A run that ends in a fault (40_cycle.md R108, 60_exceptions.md R175). -/
def EndsFaulted (s : State) : Prop := ∃ k t c, Reaches s k t ∧ t.phase = .faulted c

/-- A run that never ends: the core steps forever (40_cycle.md R108). -/
def NeverEnds (s : State) : Prop := ∀ k, ∃ t, Reaches s k t ∧ t.phase = .running

/-- The range every value of `pc` lies in, under each reading of `jalr` (10_state.md R25). -/
def pcInRange (s : State) : Bool :=
  match s.jalrReading with
  | .sequential => -32767 ≤ s.pc && s.pc ≤ 98303
  | .oldRegB => Config.wordMin ≤ s.pc && s.pc ≤ Config.wordMax

/-- What a terminal phase says of the state it holds: `halt` was fetched from the memory, and a fault records what its
cause checks (60_exceptions.md R171 to R174, 70_reset_and_hazards.md R191, R192). -/
def phaseRecords (s : State) : Bool :=
  match s.phase with
  | .loading => true
  | .running => true
  | .halted => inMemory s.pc
  | .faulted (.fetchAddressFault p) => p == s.pc && !inMemory p
  | .faulted (.invalidOpcode p w) => p == s.pc && inMemory p && w == wordAt s p.toNat && !(decoder w).upperZero
  | .faulted (.memoryAddressFault p ea) => p == s.pc && inMemory p && !inMemory ea
  | .faulted (.loadOverflow n) => n == Config.memWords
  | .faulted (.loadValueRange n) => decide (n < Config.memWords)

/-- The invariant: memory in its canonical form (R26), the loaded image inside the memory (R28), `pc` in its range (R25),
and the phase's records. -/
def State.inv (s : State) : Bool :=
  Memory.wf s.mem && decide (s.loadedCount ≤ Config.memWords) && pcInRange s && phaseRecords s

/-- What no instruction writes: the loaded count (R28), the load input, and the two fields the whole run keeps. -/
def KeepsFixed (s t : State) : Prop :=
  t.loadedCount = s.loadedCount ∧ t.input = s.input ∧ t.jalrReading = s.jalrReading ∧ t.drawSeed = s.drawSeed

/-- An instruction other than `halt` completed: the phase stays, the count rises by 1 (40_cycle.md R104). -/
def Retired (s t : State) : Prop :=
  t.phase = s.phase ∧ t.instrCount = s.instrCount + 1 ∧ KeepsFixed s t

/-- Every register reads as before. -/
def KeepsRegs (s t : State) : Prop := ∀ r, readReg t r = readReg s r

/-- Every register but `d` reads as before. -/
def KeepsRegsBut (d : RegIx) (s t : State) : Prop := ∀ r, r ≠ d → readReg t r = readReg s r

/-- Every word of memory reads as before. -/
def KeepsMem (s t : State) : Prop := ∀ a, wordAt t a = wordAt s a

/-- Every word of memory but the one at address `ea` reads as before. -/
def KeepsMemBut (ea : Int) (s t : State) : Prop := ∀ a : Nat, (a : Int) ≠ ea → wordAt t a = wordAt s a

/-- The registers an instruction reads, under each reading of `jalr` (10_state.md R22): under the normative one `jalr`
reads only the value it has itself written. -/
def readsOf : JalrReading → Instr → List RegIx
  | _, .add a b _ => [a, b]
  | _, .nor a b _ => [a, b]
  | _, .lw a _ _ => [a]
  | _, .sw a b _ => [a, b]
  | _, .beq a b _ => [a, b]
  | .sequential, .jalr _ _ => []
  | .oldRegB, .jalr _ b => [b]
  | _, .halt => []
  | _, .noop => []

/-- The register an instruction writes, if it writes one (10_state.md R22). -/
def writesOf : Instr → Option RegIx
  | .add _ _ d => some d
  | .nor _ _ d => some d
  | .lw _ b _ => some b
  | .sw _ _ _ => none
  | .beq _ _ _ => none
  | .jalr _ b => some b
  | .halt => none
  | .noop => none

/-- A line the load accepts, and the integer it spells (70_reset_and_hazards.md R191). -/
def LineSpells (l : Line) (v : Int) : Prop :=
  decimalValue l = some v ∧ -2147483648 ≤ v ∧ v ≤ 2147483647

end Sys2Proof.Machine
end

