-- ==== Sys2Proof/Certificates/Slice0/Obligations.lean ====
section
/-! DEFINITION. The statements about the model, for the provers. Each formalises a numbered rule of the spec, or a
consequence of rules that its docstring names. -/

open Sys2Proof Sys2Proof.Machine

/-! ## The instructions: encoding, result, completion and frame -/

/-- R120. A word whose bits 31:22 are 0 is `add`, whatever its bits 15:3. `add` completes in every state, writes the
sum mod 2^32 to `destReg`, r0 as any other register, and changes nothing else but `pc` and the count. -/
def Obligations.AddWritesWrappedSum : Prop :=
  (∀ w : Word, w.toNat / 2 ^ 22 = 0 →
    decode w = .ok (.add (regOfBits (w.extractLsb' 19 3)) (regOfBits (w.extractLsb' 16 3)) (regOfBits (w.extractLsb' 0 3)))) ∧
  ∀ (regA regB destReg : RegIx) (s : State), ∃ t,
    exec (.add regA regB destReg) s = .next t ∧
    (readReg t destReg).toNat = ((readReg s regA).toNat + (readReg s regB).toNat) % 2 ^ 32 ∧
    (readReg t destReg).toInt = ((readReg s regA).toInt + (readReg s regB).toInt).bmod (2 ^ 32) ∧
    KeepsRegsBut destReg s t ∧ KeepsMem s t ∧ t.pc = s.pc + 1 ∧ Retired s t

/-- R121. A word whose bits 31:22 are 1 is `nor`. `nor` completes in every state; bit `i` of `destReg` becomes 1
exactly when bit `i` of both sources is 0, and nothing else changes but `pc` and the count. -/
def Obligations.NorWritesBitwiseNor : Prop :=
  (∀ w : Word, w.toNat / 2 ^ 22 = 1 →
    decode w = .ok (.nor (regOfBits (w.extractLsb' 19 3)) (regOfBits (w.extractLsb' 16 3)) (regOfBits (w.extractLsb' 0 3)))) ∧
  ∀ (regA regB destReg : RegIx) (s : State), ∃ t,
    exec (.nor regA regB destReg) s = .next t ∧
    (∀ i, i < 32 → ((readReg t destReg).getLsbD i = true ↔
      (readReg s regA).getLsbD i = false ∧ (readReg s regB).getLsbD i = false)) ∧
    KeepsRegsBut destReg s t ∧ KeepsMem s t ∧ t.pc = s.pc + 1 ∧ Retired s t

/-- R130. A word whose bits 31:22 are 2 is `lw`. With its effective address in `[0, 65535]`, `lw` completes and `regB`
receives the whole word there, read before any write; with an address outside, the core faults with
`MemoryAddressFault(pc, EA)` and nothing else changes. -/
def Obligations.LwLoadsWordOrFaults : Prop :=
  (∀ w : Word, w.toNat / 2 ^ 22 = 2 →
    decode w = .ok (.lw (regOfBits (w.extractLsb' 19 3)) (regOfBits (w.extractLsb' 16 3)) (sext16 (w.extractLsb' 0 16)))) ∧
  ∀ (regA regB : RegIx) (offset : Int) (s : State),
    (0 ≤ effectiveAddress s regA offset ∧ effectiveAddress s regA offset ≤ 65535 → ∃ t,
      exec (.lw regA regB offset) s = .next t ∧
      readReg t regB = wordAt s (effectiveAddress s regA offset).toNat ∧
      KeepsRegsBut regB s t ∧ KeepsMem s t ∧ t.pc = s.pc + 1 ∧ Retired s t) ∧
    (¬ (0 ≤ effectiveAddress s regA offset ∧ effectiveAddress s regA offset ≤ 65535) →
      exec (.lw regA regB offset) s =
        .next (s.setPhase (.faulted (.memoryAddressFault s.pc (effectiveAddress s regA offset)))))

/-- R131. A word whose bits 31:22 are 3 is `sw`. With its effective address in `[0, 65535]`, `sw` completes: the word
there becomes the whole of `regB`, every other word and every register reads as before, and the loaded count stays. With
an address outside, the core faults with `MemoryAddressFault(pc, EA)` and nothing else changes. -/
def Obligations.SwStoresWordOrFaults : Prop :=
  (∀ w : Word, w.toNat / 2 ^ 22 = 3 →
    decode w = .ok (.sw (regOfBits (w.extractLsb' 19 3)) (regOfBits (w.extractLsb' 16 3)) (sext16 (w.extractLsb' 0 16)))) ∧
  ∀ (regA regB : RegIx) (offset : Int) (s : State),
    (0 ≤ effectiveAddress s regA offset ∧ effectiveAddress s regA offset ≤ 65535 → ∃ t,
      exec (.sw regA regB offset) s = .next t ∧
      wordAt t (effectiveAddress s regA offset).toNat = readReg s regB ∧
      KeepsMemBut (effectiveAddress s regA offset) s t ∧ KeepsRegs s t ∧ t.pc = s.pc + 1 ∧ Retired s t) ∧
    (¬ (0 ≤ effectiveAddress s regA offset ∧ effectiveAddress s regA offset ≤ 65535) →
      exec (.sw regA regB offset) s =
        .next (s.setPhase (.faulted (.memoryAddressFault s.pc (effectiveAddress s regA offset)))))

/-- R132. A word whose bits 31:22 are 4 is `beq`. `beq` completes in every state: the next `pc` is `pc + 1 + offset`
where the registers hold the same 32-bit pattern and `pc + 1` elsewhere, and nothing else changes but the count. -/
def Obligations.BeqBranchesOnEqualPatterns : Prop :=
  (∀ w : Word, w.toNat / 2 ^ 22 = 4 →
    decode w = .ok (.beq (regOfBits (w.extractLsb' 19 3)) (regOfBits (w.extractLsb' 16 3)) (sext16 (w.extractLsb' 0 16)))) ∧
  ∀ (regA regB : RegIx) (offset : Int) (s : State), ∃ t,
    exec (.beq regA regB offset) s = .next t ∧
    t.pc = (if (readReg s regA).toNat = (readReg s regB).toNat then s.pc + 1 + offset else s.pc + 1) ∧
    KeepsRegs s t ∧ KeepsMem s t ∧ Retired s t

/-- R150. A word whose bits 31:22 are 5 is `jalr`. `jalr` completes in every state: `regB` receives `bits32(pc + 1)`;
under `sequential` the next `pc` is that value read back, which is `pc + 1` for every fetched `pc`; under `old_regB` it
is the value `regB` held before. Nothing else changes but the count. -/
def Obligations.JalrLinksUnderBothReadings : Prop :=
  (∀ w : Word, w.toNat / 2 ^ 22 = 5 →
    decode w = .ok (.jalr (regOfBits (w.extractLsb' 19 3)) (regOfBits (w.extractLsb' 16 3)))) ∧
  ∀ (regA regB : RegIx) (s : State), ∃ t,
    exec (.jalr regA regB) s = .next t ∧
    readReg t regB = bits32 (s.pc + 1) ∧
    (s.jalrReading = .sequential → t.pc = (bits32 (s.pc + 1)).toInt) ∧
    (s.jalrReading = .sequential → 0 ≤ s.pc → s.pc ≤ 65535 → t.pc = s.pc + 1) ∧
    (s.jalrReading = .oldRegB → t.pc = (readReg s regB).toInt) ∧
    (0 ≤ s.pc → s.pc ≤ 65535 → ((readReg t regB).toNat : Int) = s.pc + 1) ∧
    KeepsRegsBut regB s t ∧ KeepsMem s t ∧ Retired s t

/-- R160. A word whose bits 31:22 are 6 is `halt`, whatever its bits 21:0; with bits 31:25 not 0 it is none. `halt` completes in every state: the phase
becomes Halted, the count rises by 1, and `pc`, the registers and memory stay. -/
def Obligations.HaltStopsTheCore : Prop :=
  (∀ w : Word, w.toNat / 2 ^ 22 % 8 = 6 →
    (w.toNat < 2 ^ 25 → decode w = .ok .halt) ∧ (2 ^ 25 ≤ w.toNat → decode w = .error .upperBitsNonZero)) ∧
  ∀ s : State, ∃ t,
    exec .halt s = .next t ∧
    t.phase = .halted ∧ t.instrCount = s.instrCount + 1 ∧ t.pc = s.pc ∧
    KeepsRegs s t ∧ KeepsMem s t ∧ KeepsFixed s t ∧
    t.report = some ⟨t.obs, true⟩ ∧ step t = .fault .stepAfterHalt

/-- R161. A word whose bits 31:22 are 7 is `noop`, whatever its bits 21:0; with bits 31:25 not 0 it is none. `noop` completes in every state and changes
nothing but `pc` and the count. -/
def Obligations.NoopOnlyAdvances : Prop :=
  (∀ w : Word, w.toNat / 2 ^ 22 % 8 = 7 →
    (w.toNat < 2 ^ 25 → decode w = .ok .noop) ∧ (2 ^ 25 ≤ w.toNat → decode w = .error .upperBitsNonZero)) ∧
  ∀ s : State, ∃ t,
    exec .noop s = .next t ∧
    t.pc = s.pc + 1 ∧ KeepsRegs s t ∧ KeepsMem s t ∧ Retired s t

/-- R133. The effective address is the exact integer sum of the signed base and the offset. Reducing it mod 2^32 first
would give the same outcome for every offset a field holds. No access modifies its base register, unless `lw` loads into
it. -/
def Obligations.EffectiveAddressIsExactSum : Prop :=
  ∀ (s : State) (regA : RegIx) (offset : Int), -32768 ≤ offset → offset ≤ 32767 →
    effectiveAddress s regA offset = (readReg s regA).toInt + offset ∧
    ((0 ≤ effectiveAddress s regA offset ∧ effectiveAddress s regA offset ≤ 65535) ↔
      (bits32 (effectiveAddress s regA offset)).toNat ≤ 65535) ∧
    (0 ≤ effectiveAddress s regA offset → effectiveAddress s regA offset ≤ 65535 →
      (bits32 (effectiveAddress s regA offset)).toInt = effectiveAddress s regA offset) ∧
    (∀ regB t, exec (.lw regA regB offset) s = .next t → regB ≠ regA → readReg t regA = readReg s regA) ∧
    (∀ regB t, exec (.sw regA regB offset) s = .next t → readReg t regA = readReg s regA)

/-- R21. No register is hardwired: what is written to any register, r0 too, is what a later read of it returns, and the
other registers keep their values. -/
def Obligations.EveryRegisterKeepsItsWrite : Prop :=
  ∀ (s : State) (r : RegIx) (v : Word),
    readReg (writeReg s r v) r = v ∧ KeepsRegsBut r s (writeReg s r v) ∧ KeepsMem s (writeReg s r v)

/-- R22, both readings of `jalr`. Take two running states that differ in their registers only and agree on the registers
an instruction reads. The instruction leads both to the same phase, `pc`, count and memory; a completed instruction leaves
the same value in the register it writes; every other register keeps its own value. -/
def Obligations.InstructionsReadAndWriteNamedRegisters : Prop :=
  ∀ (i : Instr) (s t : State) (v : Vector Word 8), s.phase = .running →
    (∀ r ∈ readsOf s.jalrReading i, readReg (s.setX v) r = readReg s r) → exec i s = .next t →
    ∃ u, exec i (s.setX v) = .next u ∧ u = t.setX u.x ∧
      (∀ r, writesOf i = some r → (∀ c, t.phase ≠ .faulted c) → readReg u r = readReg t r) ∧
      (∀ r, writesOf i ≠ some r → readReg t r = readReg s r ∧ readReg u r = readReg (s.setX v) r) ∧
      ∀ c, t.phase = .faulted c → t.x = s.x ∧ u.x = v

/-! ## The step -/

/-- R102. In phase Running, where the word at `pc` decodes to `i`, the step is the instruction `i` at that state. The
advance of `pc` and of the count is part of `exec`. -/
def Obligations.StepRunsDecodedInstruction : Prop :=
  ∀ (s : State) (i : Instr), s.phase = .running → 0 ≤ s.pc → s.pc ≤ 65535 →
    decode (wordAt s s.pc.toNat) = .ok i → step s = exec i s

/-- R173. From phase Running a step raises `FetchAddressFault` exactly where `pc` is outside `[0, 65535]`; the fault
records the pc. -/
def Obligations.FetchFaultsExactlyOutsideMemory : Prop :=
  ∀ s : State, s.phase = .running →
    ((s.pc < 0 ∨ 65536 ≤ s.pc) → step s = .next (s.setPhase (.faulted (.fetchAddressFault s.pc)))) ∧
    (∀ t p, step s = .next t → t.phase = .faulted (.fetchAddressFault p) → p = s.pc ∧ (s.pc < 0 ∨ 65536 ≤ s.pc))

/-- R172 and R85. From phase Running a step whose fetch succeeds raises `InvalidOpcode` exactly where bits 31:25 of the
fetched word are not all 0; the fault records the pc and the word. -/
def Obligations.InvalidOpcodeExactlyOnUpperBits : Prop :=
  ∀ s : State, s.phase = .running → 0 ≤ s.pc → s.pc ≤ 65535 →
    ((wordAt s s.pc.toNat).extractLsb' 25 7 ≠ 0#7 →
      step s = .next (s.setPhase (.faulted (.invalidOpcode s.pc (wordAt s s.pc.toNat))))) ∧
    (∀ t p w, step s = .next t → t.phase = .faulted (.invalidOpcode p w) →
      p = s.pc ∧ w = wordAt s s.pc.toNat ∧ w.extractLsb' 25 7 ≠ 0#7)

/-- R176. A fault of a running core is the first check that fails, in the order fetch, decode, execute; the third
applies to `lw` and `sw` only. -/
def Obligations.FaultsComeInStageOrder : Prop :=
  ∀ (s t : State) (c : FaultCause), s.phase = .running → step s = .next t → t.phase = .faulted c →
    (c = .fetchAddressFault s.pc ∧ ¬ (0 ≤ s.pc ∧ s.pc ≤ 65535)) ∨
    (c = .invalidOpcode s.pc (wordAt s s.pc.toNat) ∧ (0 ≤ s.pc ∧ s.pc ≤ 65535) ∧
      2 ^ 25 ≤ (wordAt s s.pc.toNat).toNat) ∨
    (∃ regA regB offset,
      (decode (wordAt s s.pc.toNat) = .ok (.lw regA regB offset) ∨ decode (wordAt s s.pc.toNat) = .ok (.sw regA regB offset)) ∧
      c = .memoryAddressFault s.pc (effectiveAddress s regA offset) ∧ (0 ≤ s.pc ∧ s.pc ≤ 65535) ∧
      ¬ (0 ≤ effectiveAddress s regA offset ∧ effectiveAddress s regA offset ≤ 65535))

/-- R175. A fault of a running core is precise: the state stays as it was but for the phase. It is for good: no step
follows and nothing is reported. -/
def Obligations.FaultsArePreciseAndFinal : Prop :=
  ∀ (s t : State) (c : FaultCause), s.phase = .running → step s = .next t → t.phase = .faulted c →
    t = s.setPhase (.faulted c) ∧ step t = .fault (.stepAfterFault c) ∧ t.report = none ∧ ¬ EndsNormally t

/-- R100. The phase moves only along the table's transitions, each under the table's condition, and the conditions
exclude each other: out of Loading by an input that can or cannot be loaded; from Running to Halted by a fetched `halt`, to
Running by another instruction whose data address, if it has one, is in the memory, to Faulted by the fault of fetch or
decode or by an `lw` or `sw` whose address is outside. Halted and Faulted are terminal. That a Loading state always has a
next step, which leaves Loading, is the model's choice (assumption log 4), not R100's. -/
def Obligations.PhaseMovesAlongTransitions : Prop :=
  ∀ s : State,
    (∀ t, step s = .next t →
      (s.phase = .loading ∧ t.phase = .running ∧ (∃ vs, List.Forall₂ LineSpells s.input vs) ∧ s.input.length ≤ 65536) ∨
      (s.phase = .loading ∧ ¬ ((∃ vs, List.Forall₂ LineSpells s.input vs) ∧ s.input.length ≤ 65536) ∧
        ∃ n, t.phase = .faulted (.loadOverflow n) ∨ t.phase = .faulted (.loadValueRange n)) ∨
      (s.phase = .running ∧ t.phase = .running ∧ ∃ i, fetchInstr s = .ok i ∧ i ≠ .halt ∧
        ∀ regA regB offset, i = .lw regA regB offset ∨ i = .sw regA regB offset →
          0 ≤ effectiveAddress s regA offset ∧ effectiveAddress s regA offset ≤ 65535) ∨
      (s.phase = .running ∧ t.phase = .halted ∧ fetchInstr s = .ok .halt) ∨
      (s.phase = .running ∧ ∃ c, t.phase = .faulted c ∧ fetchInstr s = .error c) ∨
      (s.phase = .running ∧ ∃ regA regB offset,
        (fetchInstr s = .ok (.lw regA regB offset) ∨ fetchInstr s = .ok (.sw regA regB offset)) ∧
        ¬ (0 ≤ effectiveAddress s regA offset ∧ effectiveAddress s regA offset ≤ 65535) ∧
        t.phase = .faulted (.memoryAddressFault s.pc (effectiveAddress s regA offset)))) ∧
    (s.phase = .loading ∨ s.phase = .running → ∃ t, step s = .next t) ∧
    (s.phase = .halted → step s = .fault .stepAfterHalt) ∧
    (∀ c, s.phase = .faulted c → step s = .fault (.stepAfterFault c))

/-- R104. From phase Running the count rises by 1 with each instruction that completes, `halt` included, and stays with
a fault. -/
def Obligations.CountRisesExactlyOnCompletion : Prop :=
  ∀ s t : State, s.phase = .running → step s = .next t →
    ((∀ c, t.phase ≠ .faulted c) → t.instrCount = s.instrCount + 1) ∧
    (∀ c, t.phase = .faulted c → t.instrCount = s.instrCount)

/-- R25. `pc` is an integer that never wraps: a taken `beq` leaves it at exactly `pc + 1 + offset`, also outside the
memory; `jalr` under `old_regB` at exactly the signed value of `regB`; `halt` leaves it; every other completed instruction
leaves it at exactly `pc + 1`. A fetch from a `pc` outside the memory faults. Every value a successful instruction gives
`pc` lies in `[-32767, 98303]` under `sequential` and in `[-2^31, 2^31 - 1]` under `old_regB`. -/
def Obligations.PcStaysInStatedRange : Prop :=
  ∀ s t : State, s.phase = .running → step s = .next t →
    (s.pc < 0 ∨ 65535 < s.pc → t = s.setPhase (.faulted (.fetchAddressFault s.pc))) ∧
    ((∀ c, t.phase ≠ .faulted c) →
      (0 ≤ s.pc ∧ s.pc ≤ 65535) ∧
      (∃ i, fetchInstr s = .ok i ∧
        t.pc = match i with
          | .beq regA regB offset => if readReg s regA = readReg s regB then s.pc + 1 + offset else s.pc + 1
          | .jalr _ regB => if s.jalrReading = .oldRegB then (readReg s regB).toInt else s.pc + 1
          | .halt => s.pc
          | _ => s.pc + 1) ∧
      (s.jalrReading = .sequential → -32767 ≤ t.pc ∧ t.pc ≤ 98303) ∧
      (s.jalrReading = .oldRegB → -2147483648 ≤ t.pc ∧ t.pc ≤ 2147483647))

/-- R28. Once the core runs, no step changes the loaded count, whatever address a store writes. The parameter and the
reset's number stay with it. -/
def Obligations.LoadedCountNeverChanges : Prop :=
  ∀ (k : Nat) (s t : State), s.phase = .running → Reaches s k t → KeepsFixed s t

/-- R35, R50. A running step changes a word of memory only by a `sw` to its address, and then to the stored register's
value; every other word, an unwritten one's draw too, stays. -/
def Obligations.OnlyStoresChangeMemory : Prop :=
  ∀ (s t : State) (a : Nat), s.phase = .running → step s = .next t →
    wordAt t a = wordAt s a ∨
    ∃ regA regB offset, fetchInstr s = .ok (.sw regA regB offset) ∧ effectiveAddress s regA offset = a ∧
      wordAt t a = readReg s regB

/-- R50. A read or a fetch returns the word last written to its address: after a write, that address reads as the word
written, and every other address, in or out of range, as before. -/
def Obligations.ReadsReturnTheLastWrite : Prop :=
  ∀ (s : State) (addr : Int) (v : Word), 0 ≤ addr → addr ≤ 65535 → ∃ t,
    memWrite s addr v = .ok t ∧ memRead t addr = .ok v ∧ (s.pc = addr → fetch t = .ok v) ∧
    (∀ b : Int, b ≠ addr → memRead t b = memRead s b) ∧ (s.pc ≠ addr → fetch t = fetch s)

/-- R35, R50. Along a run, a word of memory keeps its value, a reset draw too, until a `sw` writes its address: after any
number of steps, none of them a `sw` to `a`, a read or a fetch of `a` finds the same word. -/
def Obligations.MemoryWordsLastUntilStored : Prop :=
  ∀ (k : Nat) (s t : State) (a : Nat), s.phase = .running → Reaches s k t →
    (∀ j u regA regB offset, j < k → Reaches s j u → fetchInstr u = .ok (.sw regA regB offset) →
      effectiveAddress u regA offset ≠ a) →
    wordAt t a = wordAt s a

/-- R53. A store is seen by the very next fetch: where a running core's `sw` writes the address of the next
instruction, the next step runs the instruction the stored word encodes, and the one after an illegal word faults. -/
def Obligations.StoredWordRunsNext : Prop :=
  ∀ (s : State) (regA regB : RegIx) (offset : Int), s.phase = .running →
    fetchInstr s = .ok (.sw regA regB offset) → effectiveAddress s regA offset = s.pc + 1 → s.pc + 1 ≤ 65535 →
    ∃ t, step s = .next t ∧ t.pc = s.pc + 1 ∧ fetch t = .ok (readReg s regB) ∧
      (∀ i, decode (readReg s regB) = .ok i → step t = exec i t) ∧
      (∀ e, decode (readReg s regB) = .error e →
        step t = .next (t.setPhase (.faulted (.invalidOpcode t.pc (readReg s regB)))))

/-- R28, R29. No instruction can read `loadedCount` or `instrCount`: a run of a core with other values of the two goes
through the same states but for them, and counts the same number of instructions. -/
def Obligations.CountersCannotBeRead : Prop :=
  ∀ (s t : State) (n m : Nat), s.phase = .running → step s = .next t →
    step { s with loadedCount := n, instrCount := m } =
      .next { t with loadedCount := n, instrCount := m + (t.instrCount - s.instrCount) }

/-- R105. Where an instruction completes by halting, the halted report shows the registers, `pc` and loaded words of the
report before its fetch, with the count one higher and the "machine halted" indication. -/
def Obligations.HaltedReportRepeatsTheLast : Prop :=
  ∀ s t : State, s.phase = .running → step s = .next t → t.phase = .halted →
    s.report = some ⟨s.obs, false⟩ ∧
    t.report = some ⟨{ s.obs with instrCount := s.instrCount + 1 }, true⟩

/-- R105, R131. A store at or above the loaded count is shown by no report: the loaded words are reported as before. -/
def Obligations.StoresAboveImageAreUnreported : Prop :=
  ∀ (s : State) (regA regB : RegIx) (offset : Int),
    (s.loadedCount : Int) ≤ effectiveAddress s regA offset → effectiveAddress s regA offset ≤ 65535 →
    ∃ t, exec (.sw regA regB offset) s = .next t ∧ t.obs.words = s.obs.words ∧
      t.obs.words.length = s.loadedCount ∧ ∀ j (h : j < t.obs.words.length), t.obs.words[j] = wordAt s j

/-! ## Runs and invariants -/

/-- The invariant holds right after reset (R26, R28, R25). The registers of that state are 0 (R32). That `pc` and the
loaded count are 0 before the load is the model's choice (assumption log 5). -/
def Obligations.ResetMeetsInvariant : Prop :=
  State.reset.inv = true ∧ ∀ (k : Nat) (reading : JalrReading) (input : List Line),
    (State.boot k reading input).inv = true ∧ ∀ r, readReg (State.boot k reading input) r = 0#32

/-- Every step keeps the invariant: memory in the model's canonical form (assumption log 2), the image inside the memory,
`pc` in the range of R25, and a terminal phase that records what its cause checked. -/
def Obligations.EveryStepKeepsInvariant : Prop :=
  ∀ s t : State, s.inv = true → step s = .next t → t.inv = true

/-- R108. A run from phase Running ends in exactly one of three ways: it reaches Halted, it reaches Faulted, or it never
ends. A `beq` of a register with itself to its own address is a run that never ends, not a fault. -/
def Obligations.RunsEndInExactlyOneWay : Prop :=
  ∀ s : State, s.phase = .running →
    ((EndsNormally s ∧ ¬ EndsFaulted s ∧ ¬ NeverEnds s) ∨
      (¬ EndsNormally s ∧ EndsFaulted s ∧ ¬ NeverEnds s) ∨
      (¬ EndsNormally s ∧ ¬ EndsFaulted s ∧ NeverEnds s)) ∧
    ∀ r : RegIx, fetchInstr s = .ok (.beq r r (-1)) → NeverEnds s

/-- R132, R108. In a run of a core whose next instruction is a `beq` of a register with itself to its own address, `k`
steps change nothing but the count, which rises by `k`. -/
def Obligations.BranchToItselfOnlyCounts : Prop :=
  ∀ (s : State) (r : RegIx), s.phase = .running → fetchInstr s = .ok (.beq r r (-1)) →
    ∀ k, Reaches s k (s.setInstrCount (s.instrCount + k))

/-- R105, R104, R175. A run of `k` steps that ends at Halted is reported `k + 1` times, the "machine halted" indication
with the last report alone, and its execution count is `k` more. One that ends at Faulted is reported `k` times, without
the indication. -/
def Obligations.RunsAreReportedBeforeEachFetch : Prop :=
  ∀ (k : Nat) (s t : State), s.phase = .running → Reaches s k t →
    (t.phase = .halted → (s.reports k).length = k + 1 ∧ (s.reports k).getLast? = some ⟨t.obs, true⟩ ∧
      (∀ r ∈ (s.reports k).dropLast, r.machineHalted = false) ∧ t.instrCount = s.instrCount + k) ∧
    (∀ c, t.phase = .faulted c → (s.reports k).length = k ∧ (∀ r ∈ s.reports k, r.machineHalted = false) ∧
      t.instrCount + 1 = s.instrCount + k)

/-! ## Reset and load -/

/-- R32, R36. At start-up every register is 0 and the phase is Loading. -/
def Obligations.StartUpIsLoadingWithZeroRegisters : Prop :=
  ∀ (k : Nat) (reading : JalrReading) (input : List Line),
    (State.boot k reading input).phase = .loading ∧ (∀ r, readReg (State.boot k reading input) r = 0#32) ∧
    ∀ a, wordAt (State.boot k reading input) a = Config.resetWord k a

/-- R34, R37, R190. Loading lines that spell at most 65536 integers of 32 bits starts the core: registers 0, `pc` 0, the
words in file order from address 0, every other word its draw, `loadedCount` their number, `instrCount` 0. No word at all
is a legal load. That the load is ONE step is the model's choice (assumption log 4). -/
def Obligations.LoadPlacesTheImage : Prop :=
  ∀ (s : State) (vs : List Int), s.phase = .loading → List.Forall₂ LineSpells s.input vs → vs.length ≤ 65536 →
    ∃ t, step s = .next t ∧ t.phase = .running ∧ t.pc = 0 ∧ (∀ r, readReg t r = 0#32) ∧
      t.loadedCount = vs.length ∧ t.instrCount = 0 ∧
      (∀ j (h : j < vs.length), wordAt t j = bits32 vs[j]) ∧
      (∀ a, vs.length ≤ a → wordAt t a = Config.resetWord s.drawSeed a) ∧
      t.jalrReading = s.jalrReading ∧ t.drawSeed = s.drawSeed

/-- R191. A line that spells no integer, or one outside 32 bits, makes the load fail with that line's index, where the
lines before it are good and fewer than 65536. That the load is ONE step is the model's choice (assumption log 4), and so
is that an empty line, a sign alone and a line with a blank spell no integer (assumption log 11). -/
def Obligations.BadLineFailsTheLoad : Prop :=
  ∀ (s : State) (good rest : List Line) (bad : Line) (vs : List Int), s.phase = .loading →
    s.input = good ++ bad :: rest → List.Forall₂ LineSpells good vs → good.length < 65536 →
    (∀ v, decimalValue bad = some v → v < -2147483648 ∨ 2147483647 < v) →
    ∃ t, step s = .next t ∧ t.phase = .faulted (.loadValueRange good.length)

/-- R192. An input of more than 65536 words makes the load fail with the index 65536. That the load is ONE step is the
model's choice (assumption log 4). -/
def Obligations.LongInputFailsTheLoad : Prop :=
  ∀ (s : State) (good rest : List Line) (l : Line) (vs : List Int), s.phase = .loading →
    s.input = good ++ l :: rest → List.Forall₂ LineSpells good vs → good.length = 65536 →
    ∃ t, step s = .next t ∧ t.phase = .faulted (.loadOverflow 65536)

/-- R191, R92. `DecimalValue` reads an optional sign followed by decimal digits, most significant first. -/
def Obligations.DecimalValueReadsSignedDigits : Prop :=
  ∀ ds : List (Fin 10), ds ≠ [] →
    decimalValue (ds.map (fun d => Char.ofNat (48 + d.val))) = some (((ds.foldl (fun acc d => 10 * acc + d.val) 0 : Nat)) : Int) ∧
    decimalValue ('+' :: ds.map (fun d => Char.ofNat (48 + d.val))) =
      some (((ds.foldl (fun acc d => 10 * acc + d.val) 0 : Nat)) : Int) ∧
    decimalValue ('-' :: ds.map (fun d => Char.ofNat (48 + d.val))) =
      some (-((ds.foldl (fun acc d => 10 * acc + d.val) 0 : Nat) : Int))

/-- R98, R34, R191. Words written out as the assembler writes them, one decimal a line, load verbatim: word `j` of the
list is at address `j`. That the load is ONE step is the model's choice (assumption log 4). -/
def Obligations.AssembledOutputLoadsVerbatim : Prop :=
  ∀ (s : State) (ws : List Word), s.phase = .loading → s.input = ws.map decimalLine → ws.length ≤ 65536 →
    ∃ t, step s = .next t ∧ t.phase = .running ∧ t.loadedCount = ws.length ∧ t.obs.words = ws

/-! ## The decoder and the encoder -/

/-- A few words written out bit by bit from the layouts of R64 to R67, with the instructions they stand for, bits 15:3 of
an R-type word ignored (R86), and two words that are none (R85). -/
def Obligations.SampleWordsDecode : Prop :=
  decode 0b00000000000010100000000000000011#32 = .ok (.add 1 2 3) ∧
  decode 0b00000000010010101111111111111011#32 = .ok (.nor 1 2 3) ∧
  decode 0b00000000100000010000000000000101#32 = .ok (.lw 0 1 5) ∧
  decode 0b00000001000000011111111111111011#32 = .ok (.beq 0 1 (-5)) ∧
  decode 0b00000001010010100000000000000000#32 = .ok (.jalr 1 2) ∧
  decode 0b00000001100000000000000000000000#32 = .ok .halt ∧
  decode 0b00000010000000000000000000000000#32 = .error .upperBitsNonZero ∧
  decode 0b11111111111111111111111111111111#32 = .error .upperBitsNonZero

/-- R81, R82, R70. The decoder's outputs in arithmetic form: each field from its fixed position, the offset field with
bit 15 set read as `value - 65536`, the class by the opcode alone. -/
def Obligations.DecoderFieldsInArithmeticForm : Prop :=
  ∀ w : Word,
    (decoder w).opcode.toNat = w.toNat / 2 ^ 22 % 8 ∧
    (decoder w).cls = formatOf (opcodeOfBits (decoder w).opcode) ∧
    (decoder w).regA.val = w.toNat / 2 ^ 19 % 8 ∧
    (decoder w).regB.val = w.toNat / 2 ^ 16 % 8 ∧
    (decoder w).destReg.val = w.toNat % 8 ∧
    (decoder w).offset = (if w.toNat % 65536 < 32768 then ((w.toNat % 65536 : Nat) : Int) else ((w.toNat % 65536 : Nat) : Int) - 65536) ∧
    -32768 ≤ (decoder w).offset ∧ (decoder w).offset ≤ 32767 ∧
    ((decoder w).upperZero = true ↔ w.toNat < 2 ^ 25)

/-- R84, R63, R83. Each per-class decoder succeeds exactly on the opcodes of its class, R on 0 and 1, I on 2, 3 and 4, J
on 5, O on 6 and 7, and then gives the decoder's fields. -/
def Obligations.ClassDecodersValidateTheClass : Prop :=
  ∀ w : Word,
    (w.toNat / 2 ^ 22 % 8 ≤ 1 →
      decodeR w = some ((decoder w).opcode, (decoder w).regA, (decoder w).regB, (decoder w).destReg)) ∧
    (1 < w.toNat / 2 ^ 22 % 8 → decodeR w = none) ∧
    (2 ≤ w.toNat / 2 ^ 22 % 8 ∧ w.toNat / 2 ^ 22 % 8 ≤ 4 →
      decodeI w = some ((decoder w).opcode, (decoder w).regA, (decoder w).regB, (decoder w).offset)) ∧
    (w.toNat / 2 ^ 22 % 8 < 2 ∨ 4 < w.toNat / 2 ^ 22 % 8 → decodeI w = none) ∧
    (w.toNat / 2 ^ 22 % 8 = 5 → decodeJ w = some ((decoder w).opcode, (decoder w).regA, (decoder w).regB)) ∧
    (w.toNat / 2 ^ 22 % 8 ≠ 5 → decodeJ w = none) ∧
    (6 ≤ w.toNat / 2 ^ 22 % 8 → decodeO w = some (decoder w).opcode) ∧
    (w.toNat / 2 ^ 22 % 8 < 6 → decodeO w = none)

/-- R85, R88. The core refuses exactly the words with bits 31:25 not all 0, every word with bit 31 set among them, and
decodes every other word to a well-formed instruction. -/
def Obligations.IllegalWordsAreExactlyUpperBits : Prop :=
  ∀ w : Word,
    (2 ^ 25 ≤ w.toNat → decode w = .error .upperBitsNonZero) ∧
    (w.toInt < 0 → decode w = .error .upperBitsNonZero) ∧
    (w.toNat < 2 ^ 25 → ∃ i, decode w = .ok i ∧ i.wf = true)

/-- R86. The bits a format leaves unused do not change what a word decodes to: bits 15:3 of an R-type word, bits 15:0 of
a J-type word, bits 21:0 of an O-type word. -/
def Obligations.UnusedBitsAreIgnored : Prop :=
  ∀ v w : Word, v.toNat / 2 ^ 22 = w.toNat / 2 ^ 22 →
    ((decoder v).cls = .R → v.toNat / 2 ^ 16 = w.toNat / 2 ^ 16 → v.toNat % 8 = w.toNat % 8 → decode v = decode w) ∧
    ((decoder v).cls = .J → v.toNat / 2 ^ 16 = w.toNat / 2 ^ 16 → decode v = decode w) ∧
    ((decoder v).cls = .O → decode v = decode w)

/-- Decoding the encoding of any well-formed instruction gives it back, with every operand (R87 for the model's own
`encode`); so no two well-formed instructions share a word. -/
def Obligations.DecodeOfEncodeIsIdentity : Prop :=
  ∀ i : Instr, i.wf = true → decode (encode i) = .ok i

/-- R73 to R77. The encoder's outputs in arithmetic form, for every integer operand: the opcode by its number of R63,
register operands mod 8, an offset in range mod 65536, a `.fill` value in range mod 2^32, unused operands ignored, and `err` where a value is out of range. -/
def Obligations.EncoderWordsInArithmeticForm : Prop :=
  ([.add, .nor, .lw, .sw, .beq, .jalr, .halt, .noop] : List Opcode).map (fun o => (bitsOfOpcode o).toNat) =
    [0, 1, 2, 3, 4, 5, 6, 7] ∧
  ∀ (draw : Word) (opc : Opcode) (arg0 arg1 arg2 : Int),
    (formatOf opc = .R → (encoder draw (.instr opc) arg0 arg1 arg2).err = false ∧
      ((encoder draw (.instr opc) arg0 arg1 arg2).word.toNat : Int) =
        (bitsOfOpcode opc).toNat * 2 ^ 22 + arg0 % 8 * 2 ^ 19 + arg1 % 8 * 2 ^ 16 + arg2 % 8) ∧
    (formatOf opc = .I → -32768 ≤ arg2 → arg2 ≤ 32767 → (encoder draw (.instr opc) arg0 arg1 arg2).err = false ∧
      ((encoder draw (.instr opc) arg0 arg1 arg2).word.toNat : Int) =
        (bitsOfOpcode opc).toNat * 2 ^ 22 + arg0 % 8 * 2 ^ 19 + arg1 % 8 * 2 ^ 16 + arg2 % 65536) ∧
    (formatOf opc = .I → arg2 < -32768 ∨ 32767 < arg2 → (encoder draw (.instr opc) arg0 arg1 arg2).err = true) ∧
    (formatOf opc = .J → (encoder draw (.instr opc) arg0 arg1 arg2).err = false ∧
      ((encoder draw (.instr opc) arg0 arg1 arg2).word.toNat : Int) = 5 * 2 ^ 22 + arg0 % 8 * 2 ^ 19 + arg1 % 8 * 2 ^ 16) ∧
    (formatOf opc = .O → (encoder draw (.instr opc) arg0 arg1 arg2).err = false ∧
      (encoder draw (.instr opc) arg0 arg1 arg2).word.toNat = (bitsOfOpcode opc).toNat * 2 ^ 22) ∧
    (-2147483648 ≤ arg0 → arg0 ≤ 2147483647 → (encoder draw .fill arg0 arg1 arg2).err = false ∧
      ((encoder draw .fill arg0 arg1 arg2).word.toNat : Int) = arg0 % 2 ^ 32) ∧
    (arg0 < -2147483648 ∨ 2147483647 < arg0 → (encoder draw .fill arg0 arg1 arg2).err = true)

/-- R72. A register operand is masked and not checked: an operand and the operand mod 8 give the same outputs in every
register position, and no register operand sets `err`. -/
def Obligations.RegisterOperandsAreMasked : Prop :=
  ∀ (draw : Word) (opc : Opcode) (arg0 arg1 arg2 : Int),
    encoder draw (.instr opc) arg0 arg1 arg2 = encoder draw (.instr opc) (arg0 % 8) (arg1 % 8) arg2 ∧
    (formatOf opc = .R → encoder draw (.instr opc) arg0 arg1 arg2 = encoder draw (.instr opc) arg0 arg1 (arg2 % 8)) ∧
    ∀ a b : Int, (encoder draw (.instr opc) arg0 arg1 arg2).err = (encoder draw (.instr opc) a b arg2).err

/-- R78, R79. Where `err` is 1 the word is the draw, any word at all; where it is 0 the outputs depend on the inputs
alone. -/
def Obligations.EncoderWordIsFreeExactlyOnError : Prop :=
  ∀ (sel : EncoderSel) (arg0 arg1 arg2 : Int),
    (∀ draw, (encoder draw sel arg0 arg1 arg2).err = true → (encoder draw sel arg0 arg1 arg2).word = draw) ∧
    (∀ d e, (encoder d sel arg0 arg1 arg2).err = (encoder e sel arg0 arg1 arg2).err) ∧
    (∀ d e, (encoder d sel arg0 arg1 arg2).err = false → encoder d sel arg0 arg1 arg2 = encoder e sel arg0 arg1 arg2)

/-- R87. The round trip of the two blocks: whenever the encoder gives `err = 0`, the decoder of the format's class
returns the opcode and the operands of the format, register operands mod 8 (so an operand in `[0, 7]` itself), and bits
31:25 are 0. -/
def Obligations.EncoderDecoderRoundTrip : Prop :=
  ∀ (draw : Word) (opc : Opcode) (arg0 arg1 arg2 : Int) (a b d : RegIx),
    (a.val : Int) = arg0 % 8 → (b.val : Int) = arg1 % 8 → (d.val : Int) = arg2 % 8 →
    (encoder draw (.instr opc) arg0 arg1 arg2).err = false →
    (decoder (encoder draw (.instr opc) arg0 arg1 arg2).word).upperZero = true ∧
    (formatOf opc = .R → decodeR (encoder draw (.instr opc) arg0 arg1 arg2).word = some (bitsOfOpcode opc, a, b, d)) ∧
    (formatOf opc = .I → decodeI (encoder draw (.instr opc) arg0 arg1 arg2).word = some (bitsOfOpcode opc, a, b, arg2)) ∧
    (formatOf opc = .J → decodeJ (encoder draw (.instr opc) arg0 arg1 arg2).word = some (bitsOfOpcode opc, a, b)) ∧
    (formatOf opc = .O → decodeO (encoder draw (.instr opc) arg0 arg1 arg2).word = some (bitsOfOpcode opc))

/-- R102, R63, R87. The core decodes the encoder's word of each opcode, wherever there is no error, to the instruction of
that name, with the operands of its format: register operands mod 8 and the offset itself. -/
def Obligations.EncodedWordDecodesToItsInstruction : Prop :=
  ∀ (draw : Word) (arg0 arg1 arg2 : Int) (a b d : RegIx),
    (a.val : Int) = arg0 % 8 → (b.val : Int) = arg1 % 8 → (d.val : Int) = arg2 % 8 →
    decode (encoder draw (.instr .add) arg0 arg1 arg2).word = .ok (.add a b d) ∧
    decode (encoder draw (.instr .nor) arg0 arg1 arg2).word = .ok (.nor a b d) ∧
    (-32768 ≤ arg2 → arg2 ≤ 32767 →
      decode (encoder draw (.instr .lw) arg0 arg1 arg2).word = .ok (.lw a b arg2) ∧
      decode (encoder draw (.instr .sw) arg0 arg1 arg2).word = .ok (.sw a b arg2) ∧
      decode (encoder draw (.instr .beq) arg0 arg1 arg2).word = .ok (.beq a b arg2)) ∧
    decode (encoder draw (.instr .jalr) arg0 arg1 arg2).word = .ok (.jalr a b) ∧
    decode (encoder draw (.instr .halt) arg0 arg1 arg2).word = .ok .halt ∧
    decode (encoder draw (.instr .noop) arg0 arg1 arg2).word = .ok .noop

/-! ## The assembler-side contract -/

/-- R93, R132. A `beq` at address `a` whose third argument is a label of address `k` assembles to offset `k - (a + 1)`;
taken from address `a`, it leads to address `k`. -/
def Obligations.BranchToLabelReachesTheLabel : Prop :=
  ∀ (draw : Word) (table : List (Asm.Token × Nat)) (a k : Nat) (l : Asm.SourceLine) (r0 r1 : Int),
    Asm.selOf l.mnemonic = some (.instr .beq) → decimalValue l.arg0 = some r0 → decimalValue l.arg1 = some r1 →
    decimalValue l.arg2 = none → Asm.labelAddress table l.arg2 = some k →
    -32768 ≤ (k : Int) - (a + 1) → (k : Int) - (a + 1) ≤ 32767 →
    ∃ regA regB, (regA.val : Int) = r0 % 8 ∧ (regB.val : Int) = r1 % 8 ∧
      (Asm.assembleLine draw table a l).err = false ∧
      decode (Asm.assembleLine draw table a l).word = .ok (.beq regA regB ((k : Int) - (a + 1))) ∧
      ∀ s : State, s.pc = a → readReg s regA = readReg s regB →
        ∃ t, exec (.beq regA regB ((k : Int) - (a + 1))) s = .next t ∧ t.pc = k

/-- R94. A `.fill` of a label of address `k` assembles to the literal integer `k`. -/
def Obligations.FillOfLabelIsItsAddress : Prop :=
  ∀ (draw : Word) (table : List (Asm.Token × Nat)) (a k : Nat) (l : Asm.SourceLine),
    Asm.selOf l.mnemonic = some .fill → decimalValue l.arg0 = none → Asm.labelAddress table l.arg0 = some k →
    k ≤ 2147483647 →
    (Asm.assembleLine draw table a l).err = false ∧ (Asm.assembleLine draw table a l).word.toInt = k
end

