-- ==== Sys2Proof/Laws/Decimal.lean ====
section
/-! SUPPORT. Reading decimal digits, and reading back what was written. -/

namespace Sys2Proof.Machine

theorem digitValue_ofNat {d : Nat} (h : d < 10) : digitValue (Char.ofNat (48 + d)) = some d := by
  interval_cases d <;> rfl

theorem ofNat_digit_ne_sign {d : Nat} (h : d < 10) : Char.ofNat (48 + d) ≠ '-' ∧ Char.ofNat (48 + d) ≠ '+' := by
  interval_cases d <;> decide

/-- The digits written before a text are read as the number, shifted before that text. -/
theorem digitsValue_digitsBefore (fuel n : Nat) (acc : Line) (pre : Nat) (h : n < 10 ^ fuel) (hf : 0 < fuel) :
    ∃ k, digitsValue (digitsBefore fuel n acc) pre = digitsValue acc (10 ^ k * pre + n) := by
  induction fuel generalizing n acc pre with
  | zero => omega
  | succ fuel ih =>
    simp only [digitsBefore]
    split
    · next hn => exact ⟨1, by simp only [digitsValue, digitValue_ofNat hn, pow_one]⟩
    · next hn =>
      have hd : n % 10 < 10 := Nat.mod_lt _ (by norm_num)
      have hpos : 0 < fuel := by
        rcases Nat.eq_zero_or_pos fuel with h0 | h0
        · subst h0; simp at h; omega
        · exact h0
      obtain ⟨k, e⟩ := ih (n / 10) (Char.ofNat (48 + n % 10) :: acc) pre (by rw [pow_succ] at h; omega) hpos
      refine ⟨k + 1, ?_⟩
      rw [e]
      simp only [digitsValue, digitValue_ofNat hd]
      congr 1
      rw [pow_succ]
      have := Nat.div_add_mod n 10
      have h2 : 10 * (10 ^ k * pre + n / 10) + n % 10 = 10 ^ k * 10 * pre + (10 * (n / 10) + n % 10) := by ring
      rw [h2, this]

/-- Written digits are a digit followed by more text. -/
theorem digitsBefore_cons (fuel n : Nat) (acc : Line) (hf : 0 < fuel) :
    ∃ d cs, d < 10 ∧ digitsBefore fuel n acc = Char.ofNat (48 + d) :: cs := by
  induction fuel generalizing n acc with
  | zero => omega
  | succ fuel ih =>
    simp only [digitsBefore]
    split
    · next hn => exact ⟨n, acc, hn, rfl⟩
    · rcases Nat.eq_zero_or_pos fuel with h0 | h0
      · subst h0
        exact ⟨n % 10, acc, Nat.mod_lt _ (by norm_num), rfl⟩
      · exact ih _ _ h0

theorem naturalValue_naturalLine {n : Nat} (h : n < 10 ^ 10) : naturalValue (naturalLine n) = some n := by
  obtain ⟨d, cs, _, e⟩ := digitsBefore_cons 10 n [] (by norm_num)
  obtain ⟨k, e2⟩ := digitsValue_digitsBefore 10 n [] 0 h (by norm_num)
  rw [naturalLine, e, naturalValue, ← e, e2]
  simp [digitsValue]

end Sys2Proof.Machine
end

