-- ==== Sys2Proof/Laws/Encoding.lean ====
section
/-! SUPPORT. The decoder's fields and the encoder's layouts as arithmetic on the word's value. -/

namespace Sys2Proof

theorem toNat_append_add {n m : Nat} (x : BitVec n) (y : BitVec m) : (x ++ y).toNat = x.toNat * 2 ^ m + y.toNat := by
  rw [BitVec.toNat_append, ← Nat.shiftLeft_add_eq_or_of_lt y.isLt, Nat.shiftLeft_eq]

theorem field_toNat (w : Word) (lo n : Nat) : (w.extractLsb' lo n).toNat = w.toNat / 2 ^ lo % 2 ^ n := by
  rw [BitVec.extractLsb'_toNat, Nat.shiftRight_eq_div_pow]

theorem packR_toNat (opc a b d : BitVec 3) :
    (packR opc a b d).toNat = opc.toNat * 2 ^ 22 + a.toNat * 2 ^ 19 + b.toNat * 2 ^ 16 + d.toNat := by
  have h : (packR opc a b d).toNat = (0#7 ++ opc ++ a ++ b ++ 0#13 ++ d).toNat := rfl
  rw [h]
  simp only [toNat_append_add, BitVec.toNat_ofNat]
  omega

theorem packI_toNat (opc a b : BitVec 3) (off : BitVec 16) :
    (packI opc a b off).toNat = opc.toNat * 2 ^ 22 + a.toNat * 2 ^ 19 + b.toNat * 2 ^ 16 + off.toNat := by
  have h : (packI opc a b off).toNat = (0#7 ++ opc ++ a ++ b ++ off).toNat := rfl
  rw [h]
  simp only [toNat_append_add, BitVec.toNat_ofNat]
  omega

theorem packJ_toNat (opc a b : BitVec 3) :
    (packJ opc a b).toNat = opc.toNat * 2 ^ 22 + a.toNat * 2 ^ 19 + b.toNat * 2 ^ 16 := by
  have h : (packJ opc a b).toNat = (0#7 ++ opc ++ a ++ b ++ 0#16).toNat := rfl
  rw [h]
  simp only [toNat_append_add, BitVec.toNat_ofNat]
  omega

theorem packO_toNat (opc : BitVec 3) : (packO opc).toNat = opc.toNat * 2 ^ 22 := by
  have h : (packO opc).toNat = (0#7 ++ opc ++ 0#22).toNat := rfl
  rw [h]
  simp only [toNat_append_add, BitVec.toNat_ofNat]
  omega

/-- The 16-bit field's value, read as two's complement (R70). -/
theorem sext16_eq (b : BitVec 16) :
    sext16 b = if b.toNat < 32768 then (b.toNat : Int) else (b.toNat : Int) - 65536 := by
  have hb := b.isLt
  have h : b.getLsbD 15 = decide (32768 ≤ b.toNat) := by
    rw [← BitVec.msb_eq_getLsbD_last b, BitVec.msb_eq_decide]
  simp only [sext16, h, decide_eq_true_eq]
  split <;> split <;> omega

/-- Packing and unpacking an offset in range gives it back (R69, R70). -/
theorem sext16_bits16 {off : Int} (h1 : -32768 ≤ off) (h2 : off ≤ 32767) : sext16 (bits16 off) = off := by
  simp only [sext16_eq, bits16, BitVec.toNat_ofInt]
  split <;> omega

@[simp] theorem regOfBits_bitsOfReg (r : RegIx) : regOfBits (bitsOfReg r) = r := by
  revert r
  decide

@[simp] theorem opcodeOfBits_bitsOfOpcode (o : Opcode) : opcodeOfBits (bitsOfOpcode o) = o := by
  cases o <;> rfl

@[simp] theorem bitsOfOpcode_opcodeOfBits (b : BitVec 3) : bitsOfOpcode (opcodeOfBits b) = b := by
  revert b
  decide

/-- A register operand's field holds the operand mod 8 (R72). -/
theorem regField_toNat (r : Int) : ((regField r).toNat : Int) = r % 8 := by
  simp only [regField, BitVec.toNat_ofInt]
  omega

theorem offsetFits_iff (off : Int) : offsetFits off = true ↔ -32768 ≤ off ∧ off ≤ 32767 := by
  simp [offsetFits, Config.offMin, Config.offMax]

theorem fillFits_iff (v : Int) : fillFits v = true ↔ -2147483648 ≤ v ∧ v ≤ 2147483647 := by
  simp [fillFits, Config.wordMin, Config.wordMax]

/-- The field at `lo` of a word is `b` when the word's value says so. -/
theorem field_eq {w : Word} {lo n : Nat} {b : BitVec n} (h : w.toNat / 2 ^ lo % 2 ^ n = b.toNat) :
    w.extractLsb' lo n = b :=
  BitVec.eq_of_toNat_eq (by rw [field_toNat, h])

/-- Bits 31:25 of a word are 0 exactly where its value is below 2^25 (R82). -/
theorem upperZero_iff (w : Word) : (decoder w).upperZero = true ↔ w.toNat < 2 ^ 25 := by
  have hw := w.isLt
  simp only [decoder, beq_iff_eq]
  constructor
  · intro h
    have := congrArg BitVec.toNat h
    simp only [field_toNat, BitVec.toNat_ofNat] at this
    omega
  · intro h
    apply field_eq
    simp only [BitVec.toNat_ofNat]
    omega

/-- What the core's decoding answers (R85). -/
theorem decode_eq (w : Word) :
    decode w = if w.toNat < 2 ^ 25 then .ok (instrOf (decoder w)) else .error .upperBitsNonZero := by
  simp only [decode, upperZero_iff]

/-- The decoder's outputs of a word known by its fields' values. -/
theorem decoder_fields {w : Word} {opc a b d : BitVec 3} {off : BitVec 16}
    (ho : w.toNat / 2 ^ 22 % 2 ^ 3 = opc.toNat) (ha : w.toNat / 2 ^ 19 % 2 ^ 3 = a.toNat)
    (hb : w.toNat / 2 ^ 16 % 2 ^ 3 = b.toNat) (hd : w.toNat % 2 ^ 3 = d.toNat) (hoff : w.toNat % 2 ^ 16 = off.toNat) :
    (decoder w).opcode = opc ∧ (decoder w).cls = formatOf (opcodeOfBits opc) ∧ (decoder w).regA = regOfBits a ∧
      (decoder w).regB = regOfBits b ∧ (decoder w).destReg = regOfBits d ∧ (decoder w).offset = sext16 off := by
  have e1 : w.extractLsb' 22 3 = opc := field_eq ho
  have e2 : w.extractLsb' 19 3 = a := field_eq ha
  have e3 : w.extractLsb' 16 3 = b := field_eq hb
  have e4 : w.extractLsb' 0 3 = d := field_eq (by simpa using hd)
  have e5 : w.extractLsb' 0 16 = off := field_eq (by simpa using hoff)
  simp only [decoder, e1, e2, e3, e4, e5, and_self]

end Sys2Proof
end

