-- ==== Sys2Proof/Laws/Memory.lean ====
section
/-! SUPPORT. The memory's list: read after write, and the canonical form that every write keeps. -/

namespace Sys2Proof.Machine

theorem Memory.lookup_store_self (m : Memory) (a : Nat) (v : Word) :
    Memory.lookup (Memory.store m a v) a = some v := by
  induction m with
  | nil => simp [Memory.store, Memory.lookup]
  | cons c m ih =>
    obtain ⟨b, w⟩ := c
    simp only [Memory.store]
    split
    · simp [Memory.lookup]
    · split
      · simp [Memory.lookup]
      · simp [Memory.lookup, *]

theorem Memory.lookup_store_other (m : Memory) {a b : Nat} (v : Word) (h : b ≠ a) :
    Memory.lookup (Memory.store m a v) b = Memory.lookup m b := by
  induction m with
  | nil => simp [Memory.store, Memory.lookup, h]
  | cons c m ih =>
    obtain ⟨d, w⟩ := c
    simp only [Memory.store]
    split
    · simp [Memory.lookup, h]
    · split
      · next hd => subst hd; simp [Memory.lookup, h]
      · simp [Memory.lookup, ih]

theorem Memory.sortedFrom_store {m : Memory} {lo a : Nat} (v : Word) (hm : Memory.sortedFrom lo m = true)
    (hlo : lo ≤ a) (ha : a < Config.memWords) : Memory.sortedFrom lo (Memory.store m a v) = true := by
  induction m generalizing lo with
  | nil => simp [Memory.store, Memory.sortedFrom, hlo, ha]
  | cons c m ih =>
    obtain ⟨b, w⟩ := c
    simp only [Memory.sortedFrom, Bool.and_eq_true, decide_eq_true_eq] at hm
    obtain ⟨⟨h1, h2⟩, h3⟩ := hm
    simp only [Memory.store]
    split
    · next h => simp [Memory.sortedFrom, hlo, ha, h2, h3]; omega
    · split
      · next h => subst h; simp [Memory.sortedFrom, h1, h2, h3]
      · have := ih h3 (by omega)
        simp [Memory.sortedFrom, h1, h2, this]

/-- Every write at an address of the memory keeps the canonical form. -/
theorem Memory.wf_store {m : Memory} {a : Nat} (v : Word) (hm : Memory.wf m = true) (ha : a < Config.memWords) :
    Memory.wf (Memory.store m a v) = true :=
  Memory.sortedFrom_store v hm (Nat.zero_le a) ha

theorem Memory.wf_nil : Memory.wf [] = true := rfl

theorem reset_mem_wf : Memory.wf State.reset.mem = true := rfl

end Sys2Proof.Machine
end

