-- ==== Sys2Proof/Laws/State.lean ====
section
/-! SUPPORT. What each update of the state leaves in each field, and how the updates combine. -/

namespace Sys2Proof.Machine

@[simp] theorem State.setPhase_phase (s : State) (p : Phase) : (s.setPhase p).phase = p := rfl
@[simp] theorem State.setPhase_pc (s : State) (p : Phase) : (s.setPhase p).pc = s.pc := rfl
@[simp] theorem State.setPhase_x (s : State) (p : Phase) : (s.setPhase p).x = s.x := rfl
@[simp] theorem State.setPhase_mem (s : State) (p : Phase) : (s.setPhase p).mem = s.mem := rfl
@[simp] theorem State.setPhase_loadedCount (s : State) (p : Phase) : (s.setPhase p).loadedCount = s.loadedCount := rfl
@[simp] theorem State.setPhase_instrCount (s : State) (p : Phase) : (s.setPhase p).instrCount = s.instrCount := rfl
@[simp] theorem State.setPhase_input (s : State) (p : Phase) : (s.setPhase p).input = s.input := rfl
@[simp] theorem State.setPhase_jalrReading (s : State) (p : Phase) : (s.setPhase p).jalrReading = s.jalrReading := rfl
@[simp] theorem State.setPhase_drawSeed (s : State) (p : Phase) : (s.setPhase p).drawSeed = s.drawSeed := rfl

@[simp] theorem State.setPc_phase (s : State) (t : Int) : (s.setPc t).phase = s.phase := rfl
@[simp] theorem State.setPc_pc (s : State) (t : Int) : (s.setPc t).pc = t := rfl
@[simp] theorem State.setPc_x (s : State) (t : Int) : (s.setPc t).x = s.x := rfl
@[simp] theorem State.setPc_mem (s : State) (t : Int) : (s.setPc t).mem = s.mem := rfl
@[simp] theorem State.setPc_loadedCount (s : State) (t : Int) : (s.setPc t).loadedCount = s.loadedCount := rfl
@[simp] theorem State.setPc_instrCount (s : State) (t : Int) : (s.setPc t).instrCount = s.instrCount := rfl
@[simp] theorem State.setPc_input (s : State) (t : Int) : (s.setPc t).input = s.input := rfl
@[simp] theorem State.setPc_jalrReading (s : State) (t : Int) : (s.setPc t).jalrReading = s.jalrReading := rfl
@[simp] theorem State.setPc_drawSeed (s : State) (t : Int) : (s.setPc t).drawSeed = s.drawSeed := rfl

@[simp] theorem State.setX_phase (s : State) (v : Vector Word 8) : (s.setX v).phase = s.phase := rfl
@[simp] theorem State.setX_pc (s : State) (v : Vector Word 8) : (s.setX v).pc = s.pc := rfl
@[simp] theorem State.setX_x (s : State) (v : Vector Word 8) : (s.setX v).x = v := rfl
@[simp] theorem State.setX_mem (s : State) (v : Vector Word 8) : (s.setX v).mem = s.mem := rfl
@[simp] theorem State.setX_loadedCount (s : State) (v : Vector Word 8) : (s.setX v).loadedCount = s.loadedCount := rfl
@[simp] theorem State.setX_instrCount (s : State) (v : Vector Word 8) : (s.setX v).instrCount = s.instrCount := rfl
@[simp] theorem State.setX_input (s : State) (v : Vector Word 8) : (s.setX v).input = s.input := rfl
@[simp] theorem State.setX_jalrReading (s : State) (v : Vector Word 8) : (s.setX v).jalrReading = s.jalrReading := rfl
@[simp] theorem State.setX_drawSeed (s : State) (v : Vector Word 8) : (s.setX v).drawSeed = s.drawSeed := rfl

@[simp] theorem State.setMem_phase (s : State) (m : Memory) : (s.setMem m).phase = s.phase := rfl
@[simp] theorem State.setMem_pc (s : State) (m : Memory) : (s.setMem m).pc = s.pc := rfl
@[simp] theorem State.setMem_x (s : State) (m : Memory) : (s.setMem m).x = s.x := rfl
@[simp] theorem State.setMem_mem (s : State) (m : Memory) : (s.setMem m).mem = m := rfl
@[simp] theorem State.setMem_loadedCount (s : State) (m : Memory) : (s.setMem m).loadedCount = s.loadedCount := rfl
@[simp] theorem State.setMem_instrCount (s : State) (m : Memory) : (s.setMem m).instrCount = s.instrCount := rfl
@[simp] theorem State.setMem_input (s : State) (m : Memory) : (s.setMem m).input = s.input := rfl
@[simp] theorem State.setMem_jalrReading (s : State) (m : Memory) : (s.setMem m).jalrReading = s.jalrReading := rfl
@[simp] theorem State.setMem_drawSeed (s : State) (m : Memory) : (s.setMem m).drawSeed = s.drawSeed := rfl

@[simp] theorem State.setInstrCount_phase (s : State) (n : Nat) : (s.setInstrCount n).phase = s.phase := rfl
@[simp] theorem State.setInstrCount_pc (s : State) (n : Nat) : (s.setInstrCount n).pc = s.pc := rfl
@[simp] theorem State.setInstrCount_x (s : State) (n : Nat) : (s.setInstrCount n).x = s.x := rfl
@[simp] theorem State.setInstrCount_mem (s : State) (n : Nat) : (s.setInstrCount n).mem = s.mem := rfl
@[simp] theorem State.setInstrCount_loadedCount (s : State) (n : Nat) : (s.setInstrCount n).loadedCount = s.loadedCount := rfl
@[simp] theorem State.setInstrCount_instrCount (s : State) (n : Nat) : (s.setInstrCount n).instrCount = n := rfl
@[simp] theorem State.setInstrCount_input (s : State) (n : Nat) : (s.setInstrCount n).input = s.input := rfl
@[simp] theorem State.setInstrCount_jalrReading (s : State) (n : Nat) : (s.setInstrCount n).jalrReading = s.jalrReading := rfl
@[simp] theorem State.setInstrCount_drawSeed (s : State) (n : Nat) : (s.setInstrCount n).drawSeed = s.drawSeed := rfl

@[simp] theorem State.setX_self (s : State) : s.setX s.x = s := rfl

end Sys2Proof.Machine
end

