-- ==== Sys2Proof/Laws/Ops.lean ====
section
/-! SUPPORT. One lemma for each thing a shared operation can do. -/

namespace Sys2Proof.Machine

theorem inMemory_iff (a : Int) : inMemory a = true ↔ 0 ≤ a ∧ a ≤ 65535 := by
  have : ((Config.memWords : Nat) : Int) = 65536 := rfl
  simp only [inMemory, this, Bool.and_eq_true, decide_eq_true_eq]
  omega

theorem inMemory_toNat {a : Int} (h : inMemory a = true) : a.toNat < Config.memWords := by
  rw [inMemory_iff] at h
  simp only [Config.memWords]
  omega

@[simp] theorem readReg_setPhase (s : State) (p : Phase) (r : RegIx) : readReg (s.setPhase p) r = readReg s r := rfl
@[simp] theorem readReg_setPc (s : State) (t : Int) (r : RegIx) : readReg (s.setPc t) r = readReg s r := rfl
@[simp] theorem readReg_setMem (s : State) (m : Memory) (r : RegIx) : readReg (s.setMem m) r = readReg s r := rfl
@[simp] theorem readReg_setInstrCount (s : State) (n : Nat) (r : RegIx) : readReg (s.setInstrCount n) r = readReg s r := rfl

@[simp] theorem wordAt_setPhase (s : State) (p : Phase) (a : Nat) : wordAt (s.setPhase p) a = wordAt s a := rfl
@[simp] theorem wordAt_setPc (s : State) (t : Int) (a : Nat) : wordAt (s.setPc t) a = wordAt s a := rfl
@[simp] theorem wordAt_setX (s : State) (v : Vector Word 8) (a : Nat) : wordAt (s.setX v) a = wordAt s a := rfl
@[simp] theorem wordAt_setInstrCount (s : State) (n : Nat) (a : Nat) : wordAt (s.setInstrCount n) a = wordAt s a := rfl
@[simp] theorem wordAt_writeReg (s : State) (i : RegIx) (v : Word) (a : Nat) : wordAt (writeReg s i v) a = wordAt s a := rfl

@[simp] theorem writeReg_phase (s : State) (i : RegIx) (v : Word) : (writeReg s i v).phase = s.phase := rfl
@[simp] theorem writeReg_pc (s : State) (i : RegIx) (v : Word) : (writeReg s i v).pc = s.pc := rfl
@[simp] theorem writeReg_mem (s : State) (i : RegIx) (v : Word) : (writeReg s i v).mem = s.mem := rfl
@[simp] theorem writeReg_loadedCount (s : State) (i : RegIx) (v : Word) : (writeReg s i v).loadedCount = s.loadedCount := rfl
@[simp] theorem writeReg_instrCount (s : State) (i : RegIx) (v : Word) : (writeReg s i v).instrCount = s.instrCount := rfl
@[simp] theorem writeReg_input (s : State) (i : RegIx) (v : Word) : (writeReg s i v).input = s.input := rfl
@[simp] theorem writeReg_jalrReading (s : State) (i : RegIx) (v : Word) : (writeReg s i v).jalrReading = s.jalrReading := rfl
@[simp] theorem writeReg_drawSeed (s : State) (i : RegIx) (v : Word) : (writeReg s i v).drawSeed = s.drawSeed := rfl

/-- A register holds what was written to it, and every other register what it held. -/
theorem readReg_writeReg (s : State) (i r : RegIx) (v : Word) :
    readReg (writeReg s i v) r = if r = i then v else readReg s r := by
  simp only [readReg, writeReg, State.setX_x, Fin.getElem_fin, Vector.getElem_set, Fin.ext_iff]
  split <;> split <;> first | rfl | omega

@[simp] theorem readReg_writeReg_self (s : State) (i : RegIx) (v : Word) : readReg (writeReg s i v) i = v := by
  simp [readReg_writeReg]

theorem readReg_writeReg_other (s : State) {i r : RegIx} (v : Word) (h : r ≠ i) :
    readReg (writeReg s i v) r = readReg s r := by
  simp [readReg_writeReg, h]

/-- Two register files with the same reads are the same. -/
theorem x_eq_of_readReg {s t : State} (h : ∀ r, readReg t r = readReg s r) : t.x = s.x := by
  apply Vector.ext
  intro i hi
  simpa [readReg] using h ⟨i, hi⟩

/-- A word of memory reads as what was stored to it, and every other word as before. -/
theorem wordAt_setMem_store (s : State) (a b : Nat) (v : Word) :
    wordAt (s.setMem (Memory.store s.mem a v)) b = if b = a then v else wordAt s b := by
  simp only [wordAt, State.setMem_mem, State.setMem_drawSeed]
  by_cases hb : b = a
  · subst hb; simp [Memory.lookup_store_self]
  · simp [Memory.lookup_store_other _ _ hb, hb]

/-- `MemRead` answers the word at an address of the memory, or the fault. -/
theorem memRead_eq (s : State) (addr : Int) :
    memRead s addr = if 0 ≤ addr ∧ addr ≤ 65535 then .ok (wordAt s addr.toNat)
      else .error (.memoryAddressFault s.pc addr) := by
  simp only [memRead, inMemory_iff]

/-- `MemWrite` changes the one word at an address of the memory, or answers the fault. -/
theorem memWrite_eq (s : State) (addr : Int) (v : Word) :
    memWrite s addr v = if 0 ≤ addr ∧ addr ≤ 65535 then .ok (s.setMem (Memory.store s.mem addr.toNat v))
      else .error (.memoryAddressFault s.pc addr) := by
  simp only [memWrite, inMemory_iff]

/-- `Fetch` answers the word at `pc`, or the fault. -/
theorem fetch_eq (s : State) :
    fetch s = if 0 ≤ s.pc ∧ s.pc ≤ 65535 then .ok (wordAt s s.pc.toNat) else .error (.fetchAddressFault s.pc) := by
  simp only [fetch, inMemory_iff]

/-- `MemWrite` keeps the memory's canonical form. -/
theorem memWrite_wf {s t : State} {addr : Int} {v : Word} (hs : Memory.wf s.mem = true) (h : memWrite s addr v = .ok t) :
    Memory.wf t.mem = true := by
  rw [memWrite_eq] at h
  split at h
  · next hb =>
    cases h
    exact Memory.wf_store v hs (inMemory_toNat ((inMemory_iff addr).2 hb))
  · cases h

/-- Everything fetch and decode can answer. -/
theorem fetchInstr_cases (s : State) :
    (¬ (0 ≤ s.pc ∧ s.pc ≤ 65535) ∧ fetchInstr s = .error (.fetchAddressFault s.pc)) ∨
    ((0 ≤ s.pc ∧ s.pc ≤ 65535) ∧ decode (wordAt s s.pc.toNat) = .error .upperBitsNonZero ∧
      fetchInstr s = .error (.invalidOpcode s.pc (wordAt s s.pc.toNat))) ∨
    ((0 ≤ s.pc ∧ s.pc ≤ 65535) ∧ ∃ i, decode (wordAt s s.pc.toNat) = .ok i ∧ fetchInstr s = .ok i) := by
  by_cases h : 0 ≤ s.pc ∧ s.pc ≤ 65535
  · right
    rcases hd : decode (wordAt s s.pc.toNat) with e | i
    · left; cases e; simp [fetchInstr, fetch_eq, h, hd]
    · right; simp [fetchInstr, fetch_eq, h, hd]
  · left; simp [fetchInstr, fetch_eq, h]

end Sys2Proof.Machine
end

