-- ==== Sys2Proof/Laws/Exec.lean ====
section
/-! SUPPORT. Everything an instruction, the load and a step can do: one equation for each meaning, and the inversions that
later proofs cite. -/

namespace Sys2Proof.Machine

/-- The state a completed instruction other than `halt` leads to. -/
theorem retire_eq (s : State) : retire s = .next ((s.setPc (s.pc + 1)).setInstrCount (s.instrCount + 1)) := rfl

theorem raise_eq (c : FaultCause) (s : State) : raise c s = .next (s.setPhase (.faulted c)) := rfl

theorem exec_lw_eq (regA regB : RegIx) (offset : Int) (s : State) :
    exec (.lw regA regB offset) s =
      if 0 ≤ effectiveAddress s regA offset ∧ effectiveAddress s regA offset ≤ 65535 then
        retire (writeReg s regB (wordAt s (effectiveAddress s regA offset).toNat))
      else raise (.memoryAddressFault s.pc (effectiveAddress s regA offset)) s := by
  simp only [exec, execLw, memRead_eq]
  split
  · next h => split at h <;> simp_all
  · next h => split at h <;> simp_all

theorem exec_sw_eq (regA regB : RegIx) (offset : Int) (s : State) :
    exec (.sw regA regB offset) s =
      if 0 ≤ effectiveAddress s regA offset ∧ effectiveAddress s regA offset ≤ 65535 then
        retire (s.setMem (Memory.store s.mem (effectiveAddress s regA offset).toNat (readReg s regB)))
      else raise (.memoryAddressFault s.pc (effectiveAddress s regA offset)) s := by
  simp only [exec, execSw, memWrite_eq]
  split
  · next h => split at h <;> simp_all
  · next h => split at h <;> simp_all

/-- Under the normative reading `jalr` reads back the value it wrote. -/
theorem jalrSequential_eq (s : State) (regB : RegIx) :
    jalrSequential s regB = (writeReg s regB (linkWord s)).setPc (wordToInt (linkWord s) - 1) := by
  simp [jalrSequential]

/-- Everything one instruction can do: it faults on a data address, it halts, or it retires from a state that differs
from the old one in one register, in `pc` or in one word of memory. -/
theorem exec_cases (i : Instr) (s : State) :
    (∃ regA regB offset, (i = .lw regA regB offset ∨ i = .sw regA regB offset) ∧
      ¬ (0 ≤ effectiveAddress s regA offset ∧ effectiveAddress s regA offset ≤ 65535) ∧
      exec i s = raise (.memoryAddressFault s.pc (effectiveAddress s regA offset)) s) ∨
    (i = .halt ∧ exec i s = .next ((s.setInstrCount (s.instrCount + 1)).setPhase .halted)) ∨
    (i ≠ .halt ∧ (∀ a b off, i ≠ .sw a b off) ∧ (∃ d v p, exec i s = retire ((writeReg s d v).setPc p))) ∨
    (i ≠ .halt ∧ (∀ a b off, i ≠ .sw a b off) ∧ (∃ p, exec i s = retire (s.setPc p))) ∨
    (∃ regA regB offset, i = .sw regA regB offset ∧
      (0 ≤ effectiveAddress s regA offset ∧ effectiveAddress s regA offset ≤ 65535) ∧
      exec i s = retire (s.setMem (Memory.store s.mem (effectiveAddress s regA offset).toNat (readReg s regB)))) := by
  cases i with
  | add a b d => exact .inr (.inr (.inl ⟨by simp, by simp, d, _, s.pc, rfl⟩))
  | nor a b d => exact .inr (.inr (.inl ⟨by simp, by simp, d, _, s.pc, rfl⟩))
  | lw a b off =>
    by_cases h : 0 ≤ effectiveAddress s a off ∧ effectiveAddress s a off ≤ 65535
    · exact .inr (.inr (.inl ⟨by simp, by simp, b, _, s.pc, by rw [exec_lw_eq, if_pos h]; rfl⟩))
    · exact .inl ⟨a, b, off, .inl rfl, h, by rw [exec_lw_eq, if_neg h]⟩
  | sw a b off =>
    by_cases h : 0 ≤ effectiveAddress s a off ∧ effectiveAddress s a off ≤ 65535
    · exact .inr (.inr (.inr (.inr ⟨a, b, off, rfl, h, by rw [exec_sw_eq, if_pos h]⟩)))
    · exact .inl ⟨a, b, off, .inr rfl, h, by rw [exec_sw_eq, if_neg h]⟩
  | beq a b off => exact .inr (.inr (.inr (.inl ⟨by simp, by simp, _, rfl⟩)))
  | jalr a b =>
    refine .inr (.inr (.inl ⟨by simp, by simp, b, linkWord s, ?_⟩))
    cases h : s.jalrReading with
    | sequential => exact ⟨wordToInt (linkWord s) - 1, by simp only [exec, execJalr, h, jalrSequential_eq]⟩
    | oldRegB => exact ⟨wordToInt (readReg s b) - 1, by simp only [exec, execJalr, h, jalrOldRegB]⟩
  | halt => exact .inr (.inl ⟨rfl, rfl⟩)
  | noop => exact .inr (.inr (.inr (.inl ⟨by simp, by simp, s.pc, rfl⟩)))

/-- Every instruction leads to a next state: a fault of the core is one. -/
theorem exec_next (i : Instr) (s : State) : ∃ t, exec i s = .next t := by
  rcases exec_cases i s with ⟨_, _, _, _, _, h⟩ | ⟨_, h⟩ | ⟨_, _, _, _, _, h⟩ | ⟨_, _, _, h⟩ | ⟨_, _, _, _, _, h⟩ <;>
    exact ⟨_, h⟩

/-- No instruction changes the loaded count, the input, the parameter or the reset's number. -/
theorem exec_keepsFixed {i : Instr} {s t : State} (h : exec i s = .next t) : KeepsFixed s t := by
  rcases exec_cases i s with ⟨_, _, _, _, _, e⟩ | ⟨_, e⟩ | ⟨_, _, _, _, _, e⟩ | ⟨_, _, _, e⟩ | ⟨_, _, _, _, _, e⟩ <;>
    · rw [e] at h
      cases h
      exact ⟨rfl, rfl, rfl, rfl⟩

/-- Everything a step of a running core can do. -/
theorem step_running {s : State} (h : s.phase = .running) :
    (¬ (0 ≤ s.pc ∧ s.pc ≤ 65535) ∧ step s = raise (.fetchAddressFault s.pc) s) ∨
    ((0 ≤ s.pc ∧ s.pc ≤ 65535) ∧ decode (wordAt s s.pc.toNat) = .error .upperBitsNonZero ∧
      step s = raise (.invalidOpcode s.pc (wordAt s s.pc.toNat)) s) ∨
    ((0 ≤ s.pc ∧ s.pc ≤ 65535) ∧ ∃ i, decode (wordAt s s.pc.toNat) = .ok i ∧ fetchInstr s = .ok i ∧ step s = exec i s) := by
  rcases fetchInstr_cases s with ⟨hp, e⟩ | ⟨hp, hd, e⟩ | ⟨hp, i, hd, e⟩
  · exact .inl ⟨hp, by simp only [step, h, e]⟩
  · exact .inr (.inl ⟨hp, hd, by simp only [step, h, e]⟩)
  · exact .inr (.inr ⟨hp, i, hd, e, by simp only [step, h, e]⟩)

/-- The host's word keeps the memory's canonical form. -/
theorem withFetchWord_wf {s : State} (nbits w : Nat) (hs : Memory.wf s.mem = true) :
    Memory.wf (s.withFetchWord nbits w).mem = true := by
  simp only [State.withFetchWord]
  split
  · next h => exact Memory.wf_store _ hs (inMemory_toNat h)
  · exact Memory.wf_store _ hs (show (0 : Int).toNat < Config.memWords by decide)

theorem step_loading {s : State} (h : s.phase = .loading) : step s = load s := by simp only [step, h]

theorem step_halted {s : State} (h : s.phase = .halted) : step s = .fault .stepAfterHalt := by simp only [step, h]

theorem step_faulted {s : State} {c : FaultCause} (h : s.phase = .faulted c) : step s = .fault (.stepAfterFault c) := by
  simp only [step, h]

/-- A run of `k + 1` steps is one step and then a run of `k`. -/
theorem reaches_succ (s t : State) (k : Nat) : Reaches s (k + 1) t ↔ ∃ u, step s = .next u ∧ Reaches u k t := by
  rcases h : step s with v | r | r
  · have e : Reaches s (k + 1) t ↔ Reaches v k t := by
      have h' : Sys2Proof.core.step s = .next v := h
      unfold Reaches
      simp only [Host.Core.run, h']
    rw [e]
    constructor
    · exact fun g => ⟨v, rfl, g⟩
    · rintro ⟨u, hu, g⟩
      cases hu
      exact g
  · have h' : Sys2Proof.core.step s = .fault r := h
    unfold Reaches
    simp only [Host.Core.run, h']
    constructor <;> intro g
    · cases g
    · obtain ⟨_, g, _⟩ := g
      cases g
  · have h' : Sys2Proof.core.step s = .refused r := h
    unfold Reaches
    simp only [Host.Core.run, h']
    constructor <;> intro g
    · cases g
    · obtain ⟨_, g, _⟩ := g
      cases g

theorem reaches_zero (s t : State) : Reaches s 0 t ↔ s = t := by
  unfold Reaches
  simp only [Host.Core.run]
  constructor
  · intro h
    cases h
    rfl
  · intro h
    cases h
    rfl

end Sys2Proof.Machine
end

