-- ==== Sys2Proof/Laws/Load.lean ====
section
/-! SUPPORT. What the load writes: the words of the good lines before the first bad one, at addresses from 0. -/

namespace Sys2Proof.Machine

/-- Write a list of words at successive addresses. -/
def Memory.storeFrom : Memory → Nat → List Word → Memory
  | m, _, [] => m
  | m, n, w :: ws => Memory.storeFrom (Memory.store m n w) (n + 1) ws

theorem Memory.lookup_storeFrom_below (m : Memory) (n : Nat) (ws : List Word) {a : Nat} (h : a < n) :
    Memory.lookup (Memory.storeFrom m n ws) a = Memory.lookup m a := by
  induction ws generalizing m n with
  | nil => rfl
  | cons w ws ih =>
    rw [Memory.storeFrom, ih _ _ (by omega), Memory.lookup_store_other _ _ (by omega)]

theorem Memory.lookup_storeFrom_above (m : Memory) (n : Nat) (ws : List Word) {a : Nat} (h : n + ws.length ≤ a) :
    Memory.lookup (Memory.storeFrom m n ws) a = Memory.lookup m a := by
  induction ws generalizing m n with
  | nil => rfl
  | cons w ws ih =>
    simp only [List.length_cons] at h
    rw [Memory.storeFrom, ih _ _ (by omega), Memory.lookup_store_other _ _ (by omega)]

theorem Memory.lookup_storeFrom (m : Memory) (n : Nat) (ws : List Word) (j : Nat) (h : j < ws.length) :
    Memory.lookup (Memory.storeFrom m n ws) (n + j) = some ws[j] := by
  induction ws generalizing m n j with
  | nil => simp at h
  | cons w ws ih =>
    rw [Memory.storeFrom]
    cases j with
    | zero => exact (Memory.lookup_storeFrom_below _ _ _ (by omega)).trans (Memory.lookup_store_self m n w)
    | succ j =>
      have := ih (Memory.store m n w) (n + 1) j (by simpa using h)
      rw [show n + (j + 1) = n + 1 + j by omega, this]
      rfl

theorem Memory.wf_storeFrom {m : Memory} (n : Nat) (ws : List Word) (hm : Memory.wf m = true)
    (h : n + ws.length ≤ Config.memWords) : Memory.wf (Memory.storeFrom m n ws) = true := by
  induction ws generalizing m n with
  | nil => exact hm
  | cons w ws ih =>
    simp only [List.length_cons] at h
    exact ih (n + 1) (Memory.wf_store _ hm (by omega)) (by omega)

/-- Good lines that fit are written, and the load goes on after them. -/
theorem loadLines_good {good : List Line} {ws : List Word} (rest : List Line) (n : Nat) (m : Memory)
    (h : List.Forall₂ (fun l w => lineWord l = some w) good ws) (hn : n + good.length ≤ Config.memWords) :
    loadLines (good ++ rest) n m = loadLines rest (n + good.length) (Memory.storeFrom m n ws) := by
  induction h generalizing n m with
  | nil => rfl
  | cons hl _ ih =>
    simp only [List.length_cons] at hn
    have : n ≠ Config.memWords := by omega
    simp only [List.cons_append, loadLines, this, if_false, hl, Memory.storeFrom, List.length_cons]
    rw [ih (n + 1) _ (by omega)]
    congr 1
    omega

/-- Everything the loop can answer: all lines were written, or a prefix was and the next line is the fault. -/
theorem loadLines_cases (ls : List Line) (n : Nat) (m : Memory) (hn : n ≤ Config.memWords) (hm : Memory.wf m = true) :
    ∃ m' n' c, loadLines ls n m = (m', n', c) ∧ Memory.wf m' = true ∧ n ≤ n' ∧ n' ≤ Config.memWords ∧
      (c = none ∨ c = some (.loadOverflow Config.memWords) ∨ c = some (.loadValueRange n') ∧ n' < Config.memWords) := by
  induction ls generalizing n m with
  | nil => exact ⟨m, n, none, rfl, hm, le_refl n, hn, .inl rfl⟩
  | cons l ls ih =>
    by_cases h : n = Config.memWords
    · refine ⟨m, n, some (.loadOverflow n), by simp only [loadLines, if_pos h], hm, le_refl n, hn, .inr (.inl (by rw [h]))⟩
    · have hlt : n < Config.memWords := by omega
      cases hw : lineWord l with
      | none =>
        exact ⟨m, n, some (.loadValueRange n), by simp only [loadLines, if_neg h, hw], hm, le_refl n, hn, .inr (.inr ⟨rfl, hlt⟩)⟩
      | some w =>
        obtain ⟨m', n', c, e, h1, h2, h3, h4⟩ := ih (n + 1) (Memory.store m n w) hlt (Memory.wf_store w hm hlt)
        exact ⟨m', n', c, by simp only [loadLines, if_neg h, hw, e], h1, by omega, h3, h4⟩

/-- The word of a line is that of the integer it spells. -/
theorem lineWord_eq_some_iff (l : Line) (w : Word) : lineWord l = some w ↔ ∃ v, LineSpells l v ∧ w = bits32 v := by
  unfold lineWord LineSpells
  cases h : decimalValue l with
  | none => simp
  | some v =>
    have hf := fillFits_iff v
    by_cases hv : fillFits v = true
    · simp only [hv, if_true, Option.some.injEq]
      exact ⟨fun e => ⟨v, ⟨rfl, hf.1 hv⟩, e.symm⟩, fun ⟨_, ⟨e, _⟩, e'⟩ => by rw [e', e]⟩
    · simp only [hv, Bool.false_eq_true, if_false, reduceCtorEq, Option.some.injEq, false_iff]
      rintro ⟨_, ⟨rfl, hr⟩, -⟩
      exact hv (hf.2 hr)

/-- Lines that spell integers have their words. -/
theorem lineWords_of_spells {ls : List Line} {vs : List Int} (h : List.Forall₂ LineSpells ls vs) :
    List.Forall₂ (fun l w => lineWord l = some w) ls (vs.map bits32) := by
  induction h with
  | nil => exact .nil
  | cons hl _ ih => exact .cons ((lineWord_eq_some_iff _ _).2 ⟨_, hl, rfl⟩) ih

/-- The loop stops at no line exactly where every line spells an integer and all of them fit. -/
theorem loadLines_none_iff (ls : List Line) (n : Nat) (m : Memory) (hn : n ≤ Config.memWords) :
    (loadLines ls n m).2.2 = none ↔ (∃ vs, List.Forall₂ LineSpells ls vs) ∧ n + ls.length ≤ Config.memWords := by
  induction ls generalizing n m with
  | nil => simp [loadLines, hn]
  | cons l ls ih =>
    simp only [loadLines, List.length_cons]
    split
    · next h => simp; omega
    · next h =>
      cases hw : lineWord l with
      | none =>
        simp only [reduceCtorEq, false_iff, not_and]
        rintro ⟨vs, hv⟩
        cases hv with
        | cons hl _ => rw [(lineWord_eq_some_iff _ _).2 ⟨_, hl, rfl⟩] at hw; cases hw
      | some w =>
        obtain ⟨v, hl, -⟩ := (lineWord_eq_some_iff _ _).1 hw
        simp only [ih (n + 1) (Memory.store m n w) (by omega)]
        constructor
        · rintro ⟨⟨vs, hv⟩, hlen⟩
          exact ⟨⟨v :: vs, .cons hl hv⟩, by omega⟩
        · rintro ⟨⟨vs, hv⟩, hlen⟩
          cases hv with
          | cons _ hv => exact ⟨⟨_, hv⟩, by omega⟩

/-- What the load does when no line stops it. -/
theorem load_ok {s : State} {m : Memory} {n : Nat} (h : loadLines s.input 0 [] = (m, n, none)) :
    load s = .next { s with x := Vector.replicate 8 0#32, input := [], mem := m, loadedCount := n, instrCount := 0,
                            pc := 0, phase := .running } := by
  simp only [load, h]

/-- What the load does when a line stops it. -/
theorem load_fault {s : State} {m : Memory} {n : Nat} {c : FaultCause} (h : loadLines s.input 0 [] = (m, n, some c)) :
    load s = .next { s with x := Vector.replicate 8 0#32, input := [], mem := m, phase := .faulted c } := by
  simp only [load, h]
  rfl

end Sys2Proof.Machine
end

