-- ==== Sys2Proof/Laws/PerInstr.lean ====
section
/-! SUPPORT. Statements made of every instruction as syntax, one lemma per constructor. -/

namespace Sys2Proof

/-- The opcode each instruction's row of spec/opcode_table.json gives. -/
def Laws.EncodedOpcode.number : Instr → Nat
  | .add _ _ _ => 0
  | .nor _ _ _ => 1
  | .lw _ _ _ => 2
  | .sw _ _ _ => 3
  | .beq _ _ _ => 4
  | .jalr _ _ => 5
  | .halt => 6
  | .noop => 7

/-- Bits 31:22 of an instruction's word are its opcode: the opcode field holds it, and bits 31:25 are 0 (R61, R62, R63). -/
def Laws.EncodedOpcode.Statement (i : Instr) : Prop :=
  (encode i).toNat / 2 ^ 22 = Laws.EncodedOpcode.number i

theorem Laws.EncodedOpcode.add (a b d : RegIx) : Laws.EncodedOpcode.Statement (.add a b d) := by
  have := (bitsOfReg a).isLt; have := (bitsOfReg b).isLt; have := (bitsOfReg d).isLt
  simp only [Laws.EncodedOpcode.Statement, Laws.EncodedOpcode.number, encode, packR_toNat, BitVec.toNat_ofNat]
  omega

theorem Laws.EncodedOpcode.nor (a b d : RegIx) : Laws.EncodedOpcode.Statement (.nor a b d) := by
  have := (bitsOfReg a).isLt; have := (bitsOfReg b).isLt; have := (bitsOfReg d).isLt
  simp only [Laws.EncodedOpcode.Statement, Laws.EncodedOpcode.number, encode, packR_toNat, BitVec.toNat_ofNat]
  omega

theorem Laws.EncodedOpcode.lw (a b : RegIx) (off : Int) : Laws.EncodedOpcode.Statement (.lw a b off) := by
  have := (bitsOfReg a).isLt; have := (bitsOfReg b).isLt; have := (bits16 off).isLt
  simp only [Laws.EncodedOpcode.Statement, Laws.EncodedOpcode.number, encode, packI_toNat, BitVec.toNat_ofNat]
  omega

theorem Laws.EncodedOpcode.sw (a b : RegIx) (off : Int) : Laws.EncodedOpcode.Statement (.sw a b off) := by
  have := (bitsOfReg a).isLt; have := (bitsOfReg b).isLt; have := (bits16 off).isLt
  simp only [Laws.EncodedOpcode.Statement, Laws.EncodedOpcode.number, encode, packI_toNat, BitVec.toNat_ofNat]
  omega

theorem Laws.EncodedOpcode.beq (a b : RegIx) (off : Int) : Laws.EncodedOpcode.Statement (.beq a b off) := by
  have := (bitsOfReg a).isLt; have := (bitsOfReg b).isLt; have := (bits16 off).isLt
  simp only [Laws.EncodedOpcode.Statement, Laws.EncodedOpcode.number, encode, packI_toNat, BitVec.toNat_ofNat]
  omega

theorem Laws.EncodedOpcode.jalr (a b : RegIx) : Laws.EncodedOpcode.Statement (.jalr a b) := by
  have := (bitsOfReg a).isLt; have := (bitsOfReg b).isLt
  simp only [Laws.EncodedOpcode.Statement, Laws.EncodedOpcode.number, encode, packJ_toNat, BitVec.toNat_ofNat]
  omega

theorem Laws.EncodedOpcode.halt : Laws.EncodedOpcode.Statement .halt := by
  simp only [Laws.EncodedOpcode.Statement, Laws.EncodedOpcode.number, encode, packO_toNat, BitVec.toNat_ofNat]
  omega

theorem Laws.EncodedOpcode.noop : Laws.EncodedOpcode.Statement .noop := by
  simp only [Laws.EncodedOpcode.Statement, Laws.EncodedOpcode.number, encode, packO_toNat, BitVec.toNat_ofNat]
  omega

end Sys2Proof
end

