-- ==== Sys2Proof/Tests/Slice0.lean ====
section
/-! SUPPORT. Tests: expected results are the spec's own (95_test_vectors.md, by the vector's name) or words written out
from the layouts of 30_encoding.md. After them, for each statement with hypotheses, a witness that meets them. -/

namespace Sys2Proof.Tests

open Sys2Proof.Machine

/-- A running core at `pc` with the given registers and written words. -/
def runAt (pc : Int) (x : Vector Word 8) (mem : Memory) : State :=
  { State.reset with phase := .running, pc := pc, x := x, mem := mem }

/-- All registers 0. -/
def zeros : Vector Word 8 := #v[0, 0, 0, 0, 0, 0, 0, 0]

/-- The core at start-up with an input. -/
def loading (input : List Line) : State := State.boot 0 .sequential input

/-! ## WellFormed refuses an ill-formed term of each check -/

theorem test_wf_lw_offset_too_large : (Instr.lw 0 1 32768).wf = false := by decide
theorem test_wf_sw_offset_too_small : (Instr.sw 0 0 (-32769)).wf = false := by decide
theorem test_wf_beq_offset_too_large : (Instr.beq 0 0 32768).wf = false := by decide
theorem test_wf_accepts_both_ends : (Instr.lw 0 1 32767).wf = true ∧ (Instr.beq 0 1 (-32768)).wf = true := by decide

/-! ## Decoding: one word per constructor, bit by bit from R64 to R67 -/

-- 0000000 opcode regA regB unused destReg; unused bits 15:3 set in the second (R86).
theorem test_decode_add : decode 0b00000000000010100000000000000011#32 = .ok (.add 1 2 3) := by rfl
theorem test_decode_nor : decode 0b00000000011110001111111111111110#32 = .ok (.nor 7 0 6) := by rfl
theorem test_decode_lw : decode 0b00000000100001111000000000000000#32 = .ok (.lw 0 7 (-32768)) := by rfl
theorem test_decode_sw : decode 0b00000000110000110000000000000111#32 = .ok (.sw 0 3 7) := by rfl
theorem test_decode_beq : decode 0b00000001000000011111111111111011#32 = .ok (.beq 0 1 (-5)) := by rfl
theorem test_decode_jalr : decode 0b00000001011001010000000000000000#32 = .ok (.jalr 4 5) := by rfl
theorem test_decode_halt : decode 0b00000001101111111111111111111111#32 = .ok .halt := by rfl
theorem test_decode_noop : decode 0b00000001110000000000000000000000#32 = .ok .noop := by rfl
-- X-9: bits 31:25 not zero.
theorem test_decode_refuses : decode 0b00000010000000000000000000000000#32 = .error .upperBitsNonZero := by rfl
theorem test_decodeTableWord : decodeTableWord 32 16908283 = some (.beq 0 1 (-5)) := by rfl

/-! ## The blocks: vectors X-2, X-10, E-2, E-4, E-6, E-8, E-11, E-13 -/

theorem test_decoder_X2 : decoder 0x0101FFFB#32 = ⟨4#3, .I, 0, 1, 3, -5, true⟩ := by decide
theorem test_decoder_X10 : decoder 0xFFFFFFFF#32 = ⟨7#3, .O, 7, 7, 7, -1, false⟩ ∧ decodeO 0xFFFFFFFF#32 = some 7#3 ∧
    decodeI 0xFFFFFFFF#32 = none := by decide
theorem test_encoder_E2 : encoder 0 (.instr .add) 9 10 (-1) = ⟨655367#32, false⟩ := by decide
theorem test_encoder_E4 : encoder 0 (.instr .lw) 8 (-1) (-32768) = ⟨8880128#32, false⟩ := by decide
theorem test_encoder_E6 (draw : Word) : encoder draw (.instr .beq) 0 0 32768 = ⟨draw, true⟩ := by rfl
theorem test_encoder_E8 : encoder 0 (.instr .jalr) 1 2 99 = ⟨21626880#32, false⟩ := by decide
theorem test_encoder_E11 : encoder 0 .fill (-2147483648) 0 0 = ⟨0x80000000#32, false⟩ := by decide
theorem test_encoder_E13 (draw : Word) : encoder draw .fill 2147483648 0 0 = ⟨draw, true⟩ := by rfl
theorem test_encode_matches_table : encode (.add 1 2 3) = 655363#32 ∧ encode .halt = 25165824#32 := by decide

/-! ## One step each: vectors A, N, M, S, B, J, H, O -/

theorem test_add_A2 : (nextState (step (runAt 0 #v[0, 0x7FFFFFFF, 1, 0, 0, 0, 0, 0] [(0, 655363)]))).map
    (fun t => (readReg t 3, t.pc, t.instrCount)) = some (0x80000000, 1, 1) := by decide
theorem test_add_A6 : (nextState (exec (.add 1 2 0) (runAt 0 #v[0, 1, 2, 0, 0, 0, 0, 0] []))).map
    (fun t => readReg t 0) = some 3 := by decide
theorem test_nor_N2 : (nextState (step (runAt 0 #v[0, 5, 0, 0, 0, 0, 0, 0] [(0, 4849667)]))).map
    (fun t => readReg t 3) = some 0xFFFFFFFA := by decide
theorem test_nor_N4 : (nextState (exec (.nor 1 1 1) (runAt 0 #v[0, 0x0F0F0F0F, 0, 0, 0, 0, 0, 0] []))).map
    (fun t => readReg t 1) = some 0xF0F0F0F0 := by decide
theorem test_lw_M7 : (nextState (exec (.lw 1 1 0) (runAt 0 #v[0, 4, 0, 0, 0, 0, 0, 0] [(4, 99)]))).map
    (fun t => readReg t 1) = some 99 := by decide
-- M-6: an unwritten word reads as its draw.
theorem test_lw_M6 : (nextState (exec (.lw 2 1 0) (runAt 0 #v[0, 0, 65535, 0, 0, 0, 0, 0] []))).map
    (fun t => readReg t 1) = some (Config.resetWord 0 65535) := by rfl
theorem test_sw_S1 : (nextState (step (runAt 0 #v[0, 0, 0, 12, 0, 0, 0, 0] [(0, 12779527)]))).map
    (fun t => (t.mem, t.pc)) = some ([(0, 12779527), (7, 12)], 1) := by decide
theorem test_sw_S2 : (nextState (exec (.sw 2 1 0) (runAt 0 #v[0, 0, 70000, 0, 0, 0, 0, 0] []))).map
    (fun t => (t.phase, t.mem)) = some (.faulted (.memoryAddressFault 0 70000), []) := by decide
theorem test_beq_B1 : (nextState (step (runAt 7 zeros [(7, 16908283)]))).map (fun t => t.pc) = some 3 := by decide
theorem test_beq_B7 : (nextState (exec (.beq 1 2 3) (runAt 0 #v[0, 0, 0x80000000, 0, 0, 0, 0, 0] []))).map
    (fun t => t.pc) = some 1 := by decide
theorem test_jalr_J1_sequential : (nextState (step (runAt 2 #v[0, 0, 0, 0, 0, 9, 0, 0] [(2, 23396352)]))).map
    (fun t => (readReg t 5, t.pc)) = some (3, 3) := by decide
theorem test_jalr_J1_oldRegB : (nextState (step { runAt 2 #v[0, 0, 0, 0, 0, 9, 0, 0] [(2, 23396352)] with
    jalrReading := .oldRegB })).map (fun t => (readReg t 5, t.pc)) = some (3, 9) := by decide
theorem test_halt_H1 : (nextState (step ((runAt 4 zeros [(4, 25165824)]).setInstrCount 7))).map
    (fun t => (t.phase, t.pc, t.instrCount)) = some (.halted, 4, 8) := by decide
theorem test_noop_O2 : (nextState (step (runAt 0 zeros [(0, 0x01FFFFFF)]))).map (fun t => (t.pc, t.instrCount)) =
    some (1, 1) := by decide
theorem test_fault_O3 : (nextState (step (runAt 0 zeros [(0, 0xFFFFFFFF)]))).map (fun t => (t.phase, t.pc, t.instrCount)) =
    some (.faulted (.invalidOpcode 0 0xFFFFFFFF), 0, 0) := by decide
theorem test_fault_F1 : (nextState (step (runAt 65536 zeros []))).map (fun t => t.phase) =
    some (.faulted (.fetchAddressFault 65536)) := by decide
theorem test_halted_has_no_step : step ((runAt 4 zeros []).setPhase .halted) = .fault .stepAfterHalt := by rfl

/-! ## Reset, load and the host's word -/

theorem test_load_F3 : (nextState (step (loading []))).map (fun t => (t.phase, t.pc, t.loadedCount, t.mem)) =
    some (.running, 0, 0, []) := by decide
theorem test_load_F5 : (nextState (step (loading [['5'], ['4', '2', '9', '4', '9', '6', '7', '2', '9', '5']]))).map
    (fun t => (t.phase, t.mem)) = some (.faulted (.loadValueRange 1), [(0, 5)]) := by decide
theorem test_load_F6 : (nextState (step (loading [['-', '1']]))).map (fun t => (t.loadedCount, wordAt t 0)) =
    some (1, 0xFFFFFFFF) := by decide
theorem test_load_refuses_empty_line : decimalValue [] = none ∧ decimalValue ['-'] = none ∧ decimalValue ['1', ' '] = none := by
  decide
theorem test_decimalLine : decimalLine 0xFFFFFFFF#32 = ['-', '1'] ∧ decimalLine 655363#32 = ['6', '5', '5', '3', '6', '3'] := by
  decide
theorem test_withFetchWord : (nextState (step (State.reset.withFetchWord 32 25165824))).map (fun t => (t.phase, t.pc)) =
    some (.halted, 0) := by decide

/-! ## The assembler: vectors L1-2, L1-6, L1-7 on the lines of program P2 -/

/-- Lines 2 to 9 of program P2, with its labels, `loop` at address 0. -/
def loopLines : List Line :=
  ["loop beq 1 0 done".toList, "add 1 2 1".toList, "add 3 1 3".toList, " beq 0 0 loop".toList, "done halt".toList,
   ".fill 3".toList, ".fill -1".toList, "addr .fill loop".toList]

theorem test_assemble_loop (draw : Nat → Word) : Asm.assemble draw loopLines = .ok
    [⟨17301507, false⟩, ⟨655361, false⟩, ⟨1638403, false⟩, ⟨16842748, false⟩, ⟨25165824, false⟩, ⟨3, false⟩,
     ⟨0xFFFFFFFF, false⟩, ⟨0, false⟩] := by rfl
theorem test_assemble_unknown_mnemonic (draw : Nat → Word) :
    Asm.assemble draw [['x'], ['h', 'a', 'l', 't']] = .ok [⟨draw 0, true⟩, ⟨25165824, false⟩] := by rfl

end Sys2Proof.Tests
end

