-- ==== Sys2Proof/Tests/Witnesses.lean ====
section
/-! SUPPORT. For every statement with hypotheses, and for each of its clauses, a concrete state and operands that meet
them, at the ends of the clause's range. -/

namespace Sys2Proof.Tests

open Sys2Proof.Machine

/-- A running core with `w` at `pc`, other registers than r1 and r2 zero. -/
def runWord (pc : Int) (w : Word) (r1 r2 : Word) : State := runAt pc #v[0, r1, r2, 0, 0, 0, 0, 0] [(pc.toNat, w)]

theorem witness_AddWritesWrappedSum : (0x00000000#32).toNat / 2 ^ 22 = 0 ∧ (0x003FFFFF#32).toNat / 2 ^ 22 = 0 := by decide
theorem witness_NorWritesBitwiseNor : (0x00400000#32).toNat / 2 ^ 22 = 1 ∧ (0x007FFFFF#32).toNat / 2 ^ 22 = 1 ∧ 31 < 32 := by decide

theorem witness_LwLoadsWordOrFaults : (0x00BFFFFF#32).toNat / 2 ^ 22 = 2 ∧
    effectiveAddress (runWord 0 0 0 65535) 1 0 = 0 ∧ effectiveAddress (runWord 0 0 0 65535) 2 0 = 65535 ∧
    effectiveAddress (runWord 0 0 0 65535) 1 (-1) = -1 ∧ effectiveAddress (runWord 0 0 0 65535) 2 1 = 65536 := by decide

theorem witness_SwStoresWordOrFaults : (0x00FFFFFF#32).toNat / 2 ^ 22 = 3 ∧
    effectiveAddress (runWord 0 0 0 65535) 1 0 = 0 ∧ effectiveAddress (runWord 0 0 0 65535) 2 0 = 65535 ∧
    effectiveAddress (runWord 0 0 0 65535) 1 (-1) = -1 ∧ effectiveAddress (runWord 0 0 0 65535) 2 1 = 65536 := by decide

theorem witness_BeqBranchesOnEqualPatterns : (0x013FFFFF#32).toNat / 2 ^ 22 = 4 := by decide

theorem witness_JalrLinksUnderBothReadings : (0x017FFFFF#32).toNat / 2 ^ 22 = 5 ∧
    (runWord 0 0 0 0).jalrReading = .sequential ∧ (runWord 0 0 0 0).pc = 0 ∧ (runWord 65535 0 0 0).pc = 65535 ∧
    ({ runWord 0 0 0 0 with jalrReading := .oldRegB } : State).jalrReading = .oldRegB := by decide

theorem witness_HaltStopsTheCore : (0x01BFFFFF#32).toNat / 2 ^ 22 % 8 = 6 ∧ (0x01BFFFFF#32).toNat < 2 ^ 25 ∧
    (0x03800000#32).toNat / 2 ^ 22 % 8 = 6 ∧ 2 ^ 25 ≤ (0x03800000#32).toNat := by decide

theorem witness_NoopOnlyAdvances : (0x01FFFFFF#32).toNat / 2 ^ 22 % 8 = 7 ∧ (0x01FFFFFF#32).toNat < 2 ^ 25 ∧
    (0xFFFFFFFF#32).toNat / 2 ^ 22 % 8 = 7 ∧ 2 ^ 25 ≤ (0xFFFFFFFF#32).toNat := by decide

-- The base at both ends of its range with the offset at both ends of its own, and a base that gives 0 and 65535.
theorem witness_EffectiveAddressIsExactSum :
    effectiveAddress (runWord 0 0 0x80000000 0x7FFFFFFF) 1 (-32768) = -2147516416 ∧
    effectiveAddress (runWord 0 0 0x80000000 0x7FFFFFFF) 2 32767 = 2147516414 ∧
    effectiveAddress (runWord 0 0 32768 32768) 1 (-32768) = 0 ∧ effectiveAddress (runWord 0 0 32768 32768) 1 32767 = 65535 ∧
    (∃ t, exec (.lw 1 2 0) (runWord 0 0 0 0) = .next t) ∧ (2 : RegIx) ≠ 1 ∧ (∃ t, exec (.sw 1 2 0) (runWord 0 0 0 0) = .next t) :=
  ⟨by decide, by decide, by decide, by decide, ⟨_, rfl⟩, by decide, ⟨_, rfl⟩⟩

-- `add` reads r1 and r2 and writes r3; the second `lw` faults.
theorem witness_InstructionsReadAndWriteNamedRegisters :
    (runWord 0 0 1 2).phase = .running ∧
    (∀ r ∈ readsOf (runWord 0 0 1 2).jalrReading (.add 1 2 3),
      readReg ((runWord 0 0 1 2).setX #v[9, 1, 2, 9, 9, 9, 9, 9]) r = readReg (runWord 0 0 1 2) r) ∧
    (∃ t, exec (.add 1 2 3) (runWord 0 0 1 2) = .next t ∧ ∀ c, t.phase ≠ .faulted c) ∧
    writesOf (.add 1 2 3) = some 3 ∧ writesOf (.sw 1 2 0) ≠ some 0 ∧
    (∀ r ∈ readsOf (runWord 0 0 1 2).jalrReading (.lw 1 2 (-2)),
      readReg ((runWord 0 0 1 2).setX #v[9, 1, 9, 9, 9, 9, 9, 9]) r = readReg (runWord 0 0 1 2) r) ∧
    (∃ t c, exec (.lw 1 2 (-2)) (runWord 0 0 1 2) = .next t ∧ t.phase = .faulted c) :=
  ⟨rfl, by decide, ⟨_, rfl, fun _ h => nomatch h⟩, rfl, by decide, by decide, ⟨_, _, rfl, rfl⟩⟩

theorem witness_StepRunsDecodedInstruction :
    (runWord 0 29360128 0 0).phase = .running ∧ decode (wordAt (runWord 0 29360128 0 0) 0) = .ok .noop ∧
    (runWord 65535 29360128 0 0).pc = 65535 ∧ decode (wordAt (runWord 65535 29360128 0 0) 65535) = .ok .noop :=
  ⟨rfl, rfl, rfl, rfl⟩

theorem witness_FetchFaultsExactlyOutsideMemory :
    (runAt (-1) zeros []).phase = .running ∧ (runAt (-1) zeros []).pc < 0 ∧ 65536 ≤ (runAt 65536 zeros []).pc ∧
    ∃ t, step (runAt 65536 zeros []) = .next t ∧ t.phase = .faulted (.fetchAddressFault 65536) :=
  ⟨rfl, by decide, by decide, ⟨_, rfl, rfl⟩⟩

theorem witness_InvalidOpcodeExactlyOnUpperBits :
    (runWord 0 0x02000000 0 0).phase = .running ∧ (wordAt (runWord 0 0x02000000 0 0) 0).extractLsb' 25 7 ≠ 0#7 ∧
    (wordAt (runWord 65535 0x80000000 0 0) 65535).extractLsb' 25 7 ≠ 0#7 ∧
    ∃ t, step (runWord 65535 0x80000000 0 0) = .next t ∧ t.phase = .faulted (.invalidOpcode 65535 0x80000000) :=
  ⟨rfl, by decide, by decide, ⟨_, rfl, rfl⟩⟩

-- One fault of each stage: fetch, decode, execute (`lw 0 1 -1` is 8519679, vector P4a).
theorem witness_FaultsComeInStageOrder :
    (∃ t, step (runAt (-1) zeros []) = .next t ∧ t.phase = .faulted (.fetchAddressFault (-1))) ∧
    (∃ t, step (runWord 1 0xFFFFFFFF 0 0) = .next t ∧ t.phase = .faulted (.invalidOpcode 1 0xFFFFFFFF)) ∧
    (∃ t, step (runWord 0 8519679 0 0) = .next t ∧ t.phase = .faulted (.memoryAddressFault 0 (-1))) :=
  ⟨⟨_, rfl, rfl⟩, ⟨_, rfl, rfl⟩, ⟨_, rfl, rfl⟩⟩

theorem witness_FaultsArePreciseAndFinal :
    ∃ t, (runWord 0 8519679 0 0).phase = .running ∧ step (runWord 0 8519679 0 0) = .next t ∧
      t.phase = .faulted (.memoryAddressFault 0 (-1)) := ⟨_, rfl, rfl, rfl⟩

-- Each row of the table of R100, and the two terminal phases.
theorem witness_PhaseMovesAlongTransitions :
    (∃ t, step (loading []) = .next t ∧ t.phase = .running) ∧
    (∃ t, step (loading [[]]) = .next t ∧ t.phase = .faulted (.loadValueRange 0)) ∧
    (∃ t, step (runWord 0 29360128 0 0) = .next t ∧ t.phase = .running) ∧
    (∃ t, step (runWord 0 25165824 0 0) = .next t ∧ t.phase = .halted) ∧
    (∃ t, step (runWord 0 8519679 0 0) = .next t ∧ t.phase = .faulted (.memoryAddressFault 0 (-1))) ∧
    (∃ t, step (runAt 65536 zeros []) = .next t ∧ t.phase = .faulted (.fetchAddressFault 65536)) ∧
    ((runAt 0 zeros []).setPhase .halted).phase = .halted ∧
    ((runAt 0 zeros []).setPhase (.faulted (.fetchAddressFault 0))).phase = .faulted (.fetchAddressFault 0) :=
  ⟨⟨_, rfl, rfl⟩, ⟨_, rfl, rfl⟩, ⟨_, rfl, rfl⟩, ⟨_, rfl, rfl⟩, ⟨_, rfl, rfl⟩, ⟨_, rfl, rfl⟩, rfl, rfl⟩

theorem witness_CountRisesExactlyOnCompletion :
    (∃ t, step (runWord 0 25165824 0 0) = .next t ∧ ∀ c, t.phase ≠ .faulted c) ∧
    (∃ t c, step (runWord 0 8519679 0 0) = .next t ∧ t.phase = .faulted c) :=
  ⟨⟨_, rfl, fun _ h => nomatch h⟩, ⟨_, _, rfl, rfl⟩⟩

-- Fall-through from the last address, and both ends of both ranges: `beq 0 0 -32768` at 0, `beq 0 0 32767` at 65535, `jalr 0 1` under `old_regB`.
theorem witness_PcStaysInStatedRange :
    (∃ t, step (runWord 65535 29360128 0 0) = .next t ∧ t.phase = .running ∧ t.pc = 65536) ∧
    (∃ t, step (runWord 0 0x01008000 0 0) = .next t ∧ t.phase = .running ∧ t.jalrReading = .sequential ∧ t.pc = -32767) ∧
    (∃ t, step (runWord 65535 0x01007FFF 0 0) = .next t ∧ t.phase = .running ∧ t.pc = 98303) ∧
    (∃ t, step { runWord 0 0x01410000 0x80000000 0 with jalrReading := .oldRegB } = .next t ∧ t.phase = .running ∧
      t.pc = -2147483648) ∧
    (∃ t, step { runWord 0 0x01410000 0x7FFFFFFF 0 with jalrReading := .oldRegB } = .next t ∧ t.phase = .running ∧
      t.pc = 2147483647) ∧
    (∃ t, step (runAt 65536 zeros []) = .next t) ∧ (∃ t, step (runAt (-1) zeros []) = .next t) :=
  ⟨⟨_, rfl, rfl, rfl⟩, ⟨_, rfl, rfl, rfl, rfl⟩, ⟨_, rfl, rfl, rfl⟩, ⟨_, rfl, rfl, rfl⟩, ⟨_, rfl, rfl, rfl⟩, ⟨_, rfl⟩,
    ⟨_, rfl⟩⟩

theorem witness_LoadedCountNeverChanges :
    (runWord 0 29360128 0 0).phase = .running ∧ ∃ t, Reaches (runWord 0 29360128 0 0) 1 t := ⟨rfl, ⟨_, rfl⟩⟩

-- `sw 0 1 32767` writes word 32767 and leaves word 0 alone.
theorem witness_OnlyStoresChangeMemory :
    (runWord 0 0x00C17FFF 5 0).phase = .running ∧ ∃ t, step (runWord 0 0x00C17FFF 5 0) = .next t ∧
      wordAt t 32767 = 5 ∧ wordAt t 0 = wordAt (runWord 0 0x00C17FFF 5 0) 0 := ⟨rfl, ⟨_, rfl, by decide, by decide⟩⟩

-- The one step is a `noop`, so no step is a `sw` to address 9.
theorem witness_MemoryWordsLastUntilStored :
    (runWord 0 29360128 0 0).phase = .running ∧ (∃ t, Reaches (runWord 0 29360128 0 0) 1 t) ∧
    ∀ j u regA regB offset, j < 1 → Reaches (runWord 0 29360128 0 0) j u → fetchInstr u = .ok (.sw regA regB offset) →
      effectiveAddress u regA offset ≠ 9 := by
  refine ⟨rfl, ⟨_, rfl⟩, ?_⟩
  intro j u regA regB offset hj hu hf
  have : j = 0 := by omega
  subst this
  rw [← (reaches_zero _ _).1 hu] at hf
  have e : fetchInstr (runWord 0 29360128 0 0) = .ok .noop := rfl
  rw [e] at hf
  cases hf

theorem witness_ReadsReturnTheLastWrite :
    (runAt 0 zeros []).pc = 0 ∧ (runAt 65535 zeros []).pc = 65535 ∧ (65536 : Int) ≠ 65535 ∧ (runAt 0 zeros []).pc ≠ 65535 := by
  decide

-- `sw 0 1 1` at 0, storing a `halt` (vector S-5), and at 65534, storing an illegal word at 65535.
theorem witness_StoredWordRunsNext :
    (runWord 0 0x00C10001 25165824 0).phase = .running ∧
    fetchInstr (runWord 0 0x00C10001 25165824 0) = .ok (.sw 0 1 1) ∧
    effectiveAddress (runWord 0 0x00C10001 25165824 0) 0 1 = 0 + 1 ∧
    decode (readReg (runWord 0 0x00C10001 25165824 0) 1) = .ok .halt ∧
    fetchInstr (runWord 65534 0x00D10000 0xFFFFFFFF 65535) = .ok (.sw 2 1 0) ∧
    effectiveAddress (runWord 65534 0x00D10000 0xFFFFFFFF 65535) 2 0 = 65534 + 1 ∧
    decode (readReg (runWord 65534 0x00D10000 0xFFFFFFFF 65535) 1) = .error .upperBitsNonZero :=
  ⟨rfl, rfl, rfl, rfl, rfl, rfl, rfl⟩

theorem witness_CountersCannotBeRead :
    (runWord 0 655363 1 2).phase = .running ∧ ∃ t, step (runWord 0 655363 1 2) = .next t := ⟨rfl, ⟨_, rfl⟩⟩

theorem witness_HaltedReportRepeatsTheLast :
    (runWord 0 25165824 0 0).phase = .running ∧ ∃ t, step (runWord 0 25165824 0 0) = .next t ∧ t.phase = .halted :=
  ⟨rfl, ⟨_, rfl, rfl⟩⟩

-- A loaded count of 8 (vector S-3): the first address above the image and the last address of the memory.
theorem witness_StoresAboveImageAreUnreported :
    (({ runWord 0 0 8 65535 with loadedCount := 8 } : State).loadedCount : Int) ≤
      effectiveAddress { runWord 0 0 8 65535 with loadedCount := 8 } 1 0 ∧
    effectiveAddress { runWord 0 0 8 65535 with loadedCount := 8 } 2 0 = 65535 := by decide

theorem witness_EveryStepKeepsInvariant :
    (loading []).inv = true ∧ (∃ t, step (loading []) = .next t) ∧
    (runWord 0 0x00C17FFF 5 0).inv = true ∧ (∃ t, step (runWord 0 0x00C17FFF 5 0) = .next t) :=
  ⟨by decide, ⟨_, rfl⟩, by decide, ⟨_, rfl⟩⟩

-- One run of each kind: `halt`, a fault, and `beq 0 0 -1`.
theorem witness_RunsEndInExactlyOneWay :
    EndsNormally (runWord 0 25165824 0 0) ∧ EndsFaulted (runWord 0 8519679 0 0) ∧
    (runWord 0 16842751 0 0).phase = .running ∧ fetchInstr (runWord 0 16842751 0 0) = .ok (.beq 0 0 (-1)) :=
  ⟨⟨1, _, rfl, rfl⟩, ⟨1, _, _, rfl, rfl⟩, rfl, rfl⟩

theorem witness_BranchToItselfOnlyCounts :
    (runWord 65535 16842751 0 0).phase = .running ∧ fetchInstr (runWord 65535 16842751 0 0) = .ok (.beq 0 0 (-1)) :=
  ⟨rfl, rfl⟩

theorem witness_RunsAreReportedBeforeEachFetch :
    (∃ t, Reaches (runWord 0 25165824 0 0) 1 t ∧ t.phase = .halted) ∧
    (∃ t c, Reaches (runWord 0 8519679 0 0) 1 t ∧ t.phase = .faulted c) := ⟨⟨_, rfl, rfl⟩, ⟨_, _, rfl, rfl⟩⟩

/-! ## The load -/

/-- A line that spells 0. -/
def zeroLine : Line := ['0']

theorem zeroLine_spells : LineSpells zeroLine 0 := ⟨rfl, by decide, by decide⟩

/-- `n` good lines. -/
theorem zeroLines_spell (n : Nat) : List.Forall₂ LineSpells (List.replicate n zeroLine) (List.replicate n 0) := by
  induction n with
  | zero => exact .nil
  | succ n ih => exact .cons zeroLine_spells ih

-- No line, the two ends of a line's range, and 65536 lines.
theorem witness_LoadPlacesTheImage :
    (loading []).phase = .loading ∧ List.Forall₂ LineSpells (loading []).input [] ∧
    LineSpells ['-', '2', '1', '4', '7', '4', '8', '3', '6', '4', '8'] (-2147483648) ∧
    LineSpells ['2', '1', '4', '7', '4', '8', '3', '6', '4', '7'] 2147483647 ∧
    (loading (List.replicate 65536 zeroLine)).phase = .loading ∧
    List.Forall₂ LineSpells (loading (List.replicate 65536 zeroLine)).input (List.replicate 65536 0) ∧
    (List.replicate 65536 (0 : Int)).length ≤ 65536 :=
  ⟨rfl, .nil, ⟨by decide, by decide, by decide⟩, ⟨by decide, by decide, by decide⟩, rfl, zeroLines_spell _,
    by rw [List.length_replicate]⟩

-- The first line bad, with no number and with 2147483648, and the line of index 65535 bad.
theorem witness_BadLineFailsTheLoad :
    (loading ([] ++ [] :: [])).phase = .loading ∧ (∀ v, decimalValue [] = some v → v < -2147483648 ∨ 2147483647 < v) ∧
    (∀ v, decimalValue ['2', '1', '4', '7', '4', '8', '3', '6', '4', '8'] = some v → v < -2147483648 ∨ 2147483647 < v) ∧
    (loading (List.replicate 65535 zeroLine ++ [] :: [])).phase = .loading ∧
    List.Forall₂ LineSpells (List.replicate 65535 zeroLine) (List.replicate 65535 0) ∧
    (List.replicate 65535 zeroLine).length < 65536 := by
  refine ⟨rfl, fun v h => (nomatch h), fun v h => ?_, rfl, zeroLines_spell _, by rw [List.length_replicate]; decide⟩
  have e : decimalValue ['2', '1', '4', '7', '4', '8', '3', '6', '4', '8'] = some 2147483648 := by decide
  rw [e] at h
  cases h
  decide

theorem witness_LongInputFailsTheLoad :
    (loading (List.replicate 65536 zeroLine ++ zeroLine :: [])).phase = .loading ∧
    List.Forall₂ LineSpells (List.replicate 65536 zeroLine) (List.replicate 65536 0) ∧
    (List.replicate 65536 zeroLine).length = 65536 := ⟨rfl, zeroLines_spell _, List.length_replicate⟩

theorem witness_DecimalValueReadsSignedDigits : ([0, 9] : List (Fin 10)) ≠ [] := by decide

theorem witness_AssembledOutputLoadsVerbatim :
    (loading ([0x80000000#32, 5#32].map decimalLine)).phase = .loading ∧ ([0x80000000#32, 5#32] : List Word).length ≤ 65536 ∧
    (List.replicate 65536 (0#32 : Word)).length ≤ 65536 := ⟨rfl, by decide, by rw [List.length_replicate]⟩

/-! ## The blocks and the assembler -/

-- An opcode of each class, the first and the last.
theorem witness_ClassDecodersValidateTheClass :
    (0x00000000#32).toNat / 2 ^ 22 % 8 = 0 ∧ (0x00400000#32).toNat / 2 ^ 22 % 8 = 1 ∧ (0x00800000#32).toNat / 2 ^ 22 % 8 = 2 ∧
    (0x01000000#32).toNat / 2 ^ 22 % 8 = 4 ∧ (0x01400000#32).toNat / 2 ^ 22 % 8 = 5 ∧ (0x01800000#32).toNat / 2 ^ 22 % 8 = 6 ∧
    (0xFFFFFFFF#32).toNat / 2 ^ 22 % 8 = 7 := by decide

theorem witness_IllegalWordsAreExactlyUpperBits :
    2 ^ 25 ≤ (0x02000000#32).toNat ∧ (0xFFFFFFFF#32).toInt < 0 ∧ (0x01FFFFFF#32).toNat < 2 ^ 25 := by decide

-- Words that differ in every unused bit of their format.
theorem witness_UnusedBitsAreIgnored :
    ((decoder 0x000A0003#32).cls = .R ∧ (0x000A0003#32).toNat / 2 ^ 16 = (0x000AFFFB#32).toNat / 2 ^ 16 ∧
      (0x000A0003#32).toNat % 8 = (0x000AFFFB#32).toNat % 8 ∧ (0x000A0003#32).toNat / 2 ^ 22 = (0x000AFFFB#32).toNat / 2 ^ 22) ∧
    ((decoder 0x014A0000#32).cls = .J ∧ (0x014A0000#32).toNat / 2 ^ 16 = (0x014AFFFF#32).toNat / 2 ^ 16 ∧
      (0x014A0000#32).toNat / 2 ^ 22 = (0x014AFFFF#32).toNat / 2 ^ 22) ∧
    ((decoder 0x01800000#32).cls = .O ∧ (0x01800000#32).toNat / 2 ^ 22 = (0x01BFFFFF#32).toNat / 2 ^ 22) := by decide

theorem witness_DecodeOfEncodeIsIdentity : (Instr.beq 7 7 (-32768)).wf = true ∧ (Instr.lw 0 7 32767).wf = true := by decide

theorem witness_EncoderWordsInArithmeticForm :
    formatOf .nor = .R ∧ formatOf .sw = .I ∧ formatOf .jalr = .J ∧ formatOf .halt = .O ∧
    (-32768 : Int) ≤ -32768 ∧ (32768 : Int) > 32767 ∧ (-2147483648 : Int) ≤ 2147483647 ∧ (2147483648 : Int) > 2147483647 := by
  decide

theorem witness_RegisterOperandsAreMasked : formatOf .add = .R := rfl

theorem witness_EncoderWordIsFreeExactlyOnError :
    (encoder 0 (.instr .beq) 0 0 32768).err = true ∧ (encoder 0 .fill 2147483648 0 0).err = true ∧
    (encoder 0 (.instr .beq) 0 0 32767).err = false := by decide

-- Register operands 8 and -1 (vector E-4), and an instruction of each format.
theorem witness_EncoderDecoderRoundTrip :
    (((0 : RegIx).val : Int) = 8 % 8 ∧ ((7 : RegIx).val : Int) = -1 % 8 ∧ ((0 : RegIx).val : Int) = -32768 % 8) ∧
    (encoder 0 (.instr .lw) 8 (-1) (-32768)).err = false ∧ formatOf .lw = .I ∧
    (encoder 0 (.instr .add) 8 (-1) (-32768)).err = false ∧ formatOf .add = .R ∧
    (encoder 0 (.instr .jalr) 8 (-1) (-32768)).err = false ∧ formatOf .jalr = .J ∧
    (encoder 0 (.instr .noop) 8 (-1) (-32768)).err = false ∧ formatOf .noop = .O := by decide

-- Operands that are masked, and both ends of the offset.
theorem witness_EncodedWordDecodesToItsInstruction :
    (((1 : RegIx).val : Int) = 9 % 8 ∧ ((7 : RegIx).val : Int) = -1 % 8 ∧ ((0 : RegIx).val : Int) = -32768 % 8) ∧
    ((7 : RegIx).val : Int) = 32767 % 8 ∧ (-32768 : Int) ≤ 32767 := by decide

-- `beq 0 1 loop` at address 7 with `loop` at 3 (vector L1-2); the extreme distances.
theorem witness_BranchToLabelReachesTheLabel :
    Asm.selOf "beq".toList = some (.instr .beq) ∧ decimalValue ['0'] = some 0 ∧ decimalValue ['1'] = some 1 ∧
    decimalValue "loop".toList = none ∧ Asm.labelAddress [("loop".toList, 3)] "loop".toList = some 3 ∧
    (3 : Int) - (7 + 1) = -5 ∧ (0 : Int) - (32767 + 1) = -32768 ∧ (32768 : Int) - (0 + 1) = 32767 ∧
    (runAt 7 zeros []).pc = 7 ∧ readReg (runAt 7 zeros []) 0 = readReg (runAt 7 zeros []) 1 := by decide

theorem witness_FillOfLabelIsItsAddress :
    Asm.selOf ".fill".toList = some .fill ∧ decimalValue "loop".toList = none ∧
    Asm.labelAddress [("loop".toList, 2)] "loop".toList = some 2 := by decide

end Sys2Proof.Tests
end

/-! PROOFS of the statements about the state (spec 10_state.md): the invariant that every step keeps, where `pc` goes, what
an instruction reads and writes, and what lasts along a run. -/

/-! ## Facts about the decoder, the state and one step -/

namespace Sys2Proof

/-- Every offset the decoder reads fits its field (R70, R81). -/
theorem offsetFits_sext16 (b : BitVec 16) : offsetFits (sext16 b) = true := by
  have hb := b.isLt
  rw [offsetFits_iff, sext16_eq]
  split <;> omega

/-- The core decodes well-formed instructions only. -/
theorem wf_of_decode_eq_ok {w : Word} {i : Instr} (h : decode w = .ok i) : i.wf = true := by
  rw [decode_eq] at h
  split at h <;> cases h
  unfold instrOf
  cases opcodeOfBits (decoder w).opcode with
  | add | nor | jalr | halt | noop => rfl
  | lw | sw | beq => exact offsetFits_sext16 _

end Sys2Proof

namespace Sys2Proof.Machine

theorem readReg_congr {s t : State} (h : t.x = s.x) (r : RegIx) : readReg t r = readReg s r := by
  rw [readReg, readReg, h]

theorem effectiveAddress_congr {s t : State} {a : RegIx} (off : Int) (h : readReg t a = readReg s a) :
    effectiveAddress t a off = effectiveAddress s a off := by
  rw [effectiveAddress, effectiveAddress, h]

theorem keepsFixed_refl (s : State) : KeepsFixed s s := ⟨rfl, rfl, rfl, rfl⟩

theorem keepsFixed_trans {s t u : State} (h : KeepsFixed s t) (h' : KeepsFixed t u) : KeepsFixed s u := by
  obtain ⟨hl, hi, hj, hd⟩ := h
  obtain ⟨hl', hi', hj', hd'⟩ := h'
  exact ⟨hl'.trans hl, hi'.trans hi, hj'.trans hj, hd'.trans hd⟩

/-- The link value of `jalr` is `pc + 1` itself for every fetched `pc` (R150). -/
theorem toInt_linkWord {s : State} (hp : 0 ≤ s.pc ∧ s.pc ≤ 65535) : (linkWord s).toInt = s.pc + 1 := by
  rw [linkWord, bits32, BitVec.toInt_ofInt, Int.bmod_def]
  split <;> omega

/-- The states one instruction can lead to from `s`: `exec_cases` as a relation between the two states, to be taken apart
by `cases`. -/
inductive ExecEnds (i : Instr) (s : State) : State → Prop
  | fault (regA : RegIx) (offset : Int)
      (out : ¬ (0 ≤ effectiveAddress s regA offset ∧ effectiveAddress s regA offset ≤ 65535)) :
      ExecEnds i s (s.setPhase (.faulted (.memoryAddressFault s.pc (effectiveAddress s regA offset))))
  | halt : ExecEnds i s ((s.setInstrCount (s.instrCount + 1)).setPhase .halted)
  | register (d : RegIx) (w : Word) (p : Int) :
      ExecEnds i s (((writeReg s d w).setPc p).setInstrCount (s.instrCount + 1))
  | pcOnly (p : Int) : ExecEnds i s ((s.setPc p).setInstrCount (s.instrCount + 1))
  | store (regA regB : RegIx) (offset : Int) (isStore : i = .sw regA regB offset)
      (inside : 0 ≤ effectiveAddress s regA offset ∧ effectiveAddress s regA offset ≤ 65535) :
      ExecEnds i s (((s.setMem (Memory.store s.mem (effectiveAddress s regA offset).toNat (readReg s regB))).setPc
        (s.pc + 1)).setInstrCount (s.instrCount + 1))

theorem execEnds_of_exec {i : Instr} {s t : State} (h : exec i s = .next t) : ExecEnds i s t := by
  rcases exec_cases i s with ⟨_, _, _, _, out, e⟩ | ⟨_, e⟩ | ⟨_, _, _, _, _, e⟩ | ⟨_, _, _, e⟩ | ⟨_, _, _, hi, inside, e⟩ <;>
    rw [e] at h <;> cases h
  · exact .fault _ _ out
  · exact .halt
  · exact .register _ _ _
  · exact .pcOnly _
  · exact .store _ _ _ hi inside

/-- No instruction of a core past the load leads back to Loading (R100). -/
theorem phase_ne_loading_of_exec {i : Instr} {s t : State} (hs : s.phase ≠ .loading) (h : exec i s = .next t) :
    t.phase ≠ .loading := by
  cases execEnds_of_exec h with
  | fault | halt => simp
  | register | pcOnly | store => exact hs

/-- A step of a running core faults and changes the phase only, or runs the well-formed instruction it fetched. -/
theorem step_running_next {s t : State} (hs : s.phase = .running) (h : step s = .next t) :
    (∃ c, fetchInstr s = .error c ∧ t = s.setPhase (.faulted c)) ∨
    ∃ i, fetchInstr s = .ok i ∧ i.wf = true ∧ (0 ≤ s.pc ∧ s.pc ≤ 65535) ∧ exec i s = .next t := by
  rcases hf : fetchInstr s with c | i
  · simp only [step, hs, hf, raise_eq] at h
    cases h
    exact .inl ⟨c, rfl, rfl⟩
  · simp only [step, hs, hf] at h
    rcases fetchInstr_cases s with ⟨_, e⟩ | ⟨_, _, e⟩ | ⟨hp, j, hd, e⟩ <;> rw [hf] at e <;> cases e
    exact .inr ⟨i, rfl, wf_of_decode_eq_ok hd, hp, h⟩

theorem keepsFixed_of_running_step {s t : State} (hs : s.phase = .running) (h : step s = .next t) : KeepsFixed s t := by
  rcases step_running_next hs h with ⟨c, _, rfl⟩ | ⟨i, _, _, _, he⟩
  · exact ⟨rfl, rfl, rfl, rfl⟩
  · exact exec_keepsFixed he

/-- After the load only a running core steps, and no step leads back to Loading (R100). -/
theorem phase_of_step_of_ne_loading {s t : State} (hs : s.phase ≠ .loading) (h : step s = .next t) :
    s.phase = .running ∧ t.phase ≠ .loading := by
  cases hp : s.phase with
  | loading => exact absurd hp hs
  | running =>
    refine ⟨rfl, ?_⟩
    rcases step_running_next hp h with ⟨c, _, rfl⟩ | ⟨i, _, _, _, he⟩
    · simp
    · exact phase_ne_loading_of_exec hs he
  | halted => rw [step_halted hp] at h; cases h
  | faulted c => rw [step_faulted hp] at h; cases h

/-- Induction over a run after the load: a reflexive and transitive relation that holds across each of the run's steps
holds across the run. -/
theorem Reaches.rel_of_steps {R : State → State → Prop} (hrefl : ∀ s, R s s)
    (htrans : ∀ s t u, R s t → R t u → R s u) {k : Nat} {s t : State} (hs : s.phase ≠ .loading) (h : Reaches s k t)
    (hstep : ∀ j u u', j < k → Reaches s j u → u.phase = .running → step u = .next u' → R u u') : R s t := by
  induction k generalizing s with
  | zero =>
    rw [reaches_zero] at h
    exact h ▸ hrefl s
  | succ k ih =>
    obtain ⟨u, hu, ht⟩ := (reaches_succ s t k).1 h
    obtain ⟨hrun, hu'⟩ := phase_of_step_of_ne_loading hs hu
    have first : R s u := hstep 0 s u (Nat.succ_pos k) ((reaches_zero s s).2 rfl) hrun hu
    refine htrans s u t first (ih hu' ht fun j v v' hj hv => ?_)
    exact hstep (j + 1) v v' (Nat.succ_lt_succ hj) ((reaches_succ s v j).2 ⟨u, hu, hv⟩)

end Sys2Proof.Machine

/-! ## Where `pc` goes (R25) -/

namespace Sys2Proof.Machine

/-- Where a completed instruction fetched from the memory leaves `pc`, an exact integer (R25, R103, R132, R150, R160). -/
def nextPc (s : State) (i : Instr) : Int :=
  match i with
  | .beq regA regB offset => if readReg s regA = readReg s regB then s.pc + 1 + offset else s.pc + 1
  | .jalr _ regB => if s.jalrReading = .oldRegB then (readReg s regB).toInt else s.pc + 1
  | .halt => s.pc
  | _ => s.pc + 1

/-- An instruction fetched from the memory leaves `pc` at `nextPc`, or faults and changes the phase only. -/
theorem exec_pc_or_fault {i : Instr} {s t : State} (hp : 0 ≤ s.pc ∧ s.pc ≤ 65535) (h : exec i s = .next t) :
    t.pc = nextPc s i ∨ ∃ c, t = s.setPhase (.faulted c) := by
  cases i with
  | add | nor | halt | noop => cases h; exact .inl rfl
  | lw a b off =>
    rw [exec_lw_eq] at h
    split at h <;> cases h
    · exact .inl rfl
    · exact .inr ⟨_, rfl⟩
  | sw a b off =>
    rw [exec_sw_eq] at h
    split at h <;> cases h
    · exact .inl rfl
    · exact .inr ⟨_, rfl⟩
  | beq a b off =>
    cases h
    left
    simp only [nextPc, State.setInstrCount_pc, State.setPc_pc, branchPc, regsEqual, beq_iff_eq]
    split <;> omega
  | jalr a b =>
    left
    cases hr : s.jalrReading with
    | sequential =>
      simp only [exec, execJalr, hr, jalrSequential_eq] at h
      cases h
      simp [nextPc, hr, wordToInt, toInt_linkWord hp]
    | oldRegB =>
      simp only [exec, execJalr, hr] at h
      cases h
      simp [nextPc, hr, wordToInt, jalrOldRegB]

theorem pcInRange_iff (s : State) : pcInRange s = true ↔
    (s.jalrReading = .sequential → -32767 ≤ s.pc ∧ s.pc ≤ 98303) ∧
    (s.jalrReading = .oldRegB → -2147483648 ≤ s.pc ∧ s.pc ≤ 2147483647) := by
  cases h : s.jalrReading <;> simp [pcInRange, h, Config.wordMin, Config.wordMax]

theorem pcInRange_congr {s t : State} (hpc : t.pc = s.pc) (hr : t.jalrReading = s.jalrReading) :
    pcInRange t = pcInRange s := by
  simp only [pcInRange, hpc, hr]

/-- `nextPc` lies in the range of its `jalr` reading: an offset moves it by at most 32768 from an address of the memory, and
`jalr` under `old_regB` takes a 32-bit value (R25). -/
theorem pcInRange_of_nextPc {i : Instr} {s t : State} (hi : i.wf = true) (hp : 0 ≤ s.pc ∧ s.pc ≤ 65535)
    (hpc : t.pc = nextPc s i) (hr : t.jalrReading = s.jalrReading) : pcInRange t = true := by
  rw [pcInRange_iff, hpc, hr]
  cases i with
  | add | nor | lw | sw | halt | noop => simp only [nextPc]; omega
  | beq a b off =>
    have hoff := (offsetFits_iff off).1 hi
    simp only [nextPc]
    split <;> omega
  | jalr a b =>
    have hle := (readReg s b).le_toInt
    have hlt := (readReg s b).toInt_lt
    simp only [nextPc]
    refine ⟨fun hseq => ?_, fun hold => ?_⟩
    · rw [if_neg (by simp [hseq])]
      omega
    · rw [if_pos hold]
      omega

end Sys2Proof.Machine

/-! ## The invariant (R25, R26, R28, R171 to R174, R191, R192) -/

namespace Sys2Proof.Machine

theorem State.inv_iff (s : State) : s.inv = true ↔
    Memory.wf s.mem = true ∧ s.loadedCount ≤ Config.memWords ∧ pcInRange s = true ∧ phaseRecords s = true := by
  simp only [State.inv, Bool.and_eq_true, decide_eq_true_eq, and_assoc]

/-- A change of phase keeps the invariant where the new phase's records are right. -/
theorem State.inv_setPhase {s : State} {p : Phase} (hs : s.inv = true) (hp : phaseRecords (s.setPhase p) = true) :
    (s.setPhase p).inv = true := by
  obtain ⟨hm, hl, hpc, -⟩ := s.inv_iff.1 hs
  exact (State.inv_iff _).2 ⟨hm, hl, hpc, hp⟩

/-- The fault of fetch or decode records what its check refused (R172, R173). -/
theorem phaseRecords_of_fetchInstr_eq_error {s : State} {c : FaultCause} (h : fetchInstr s = .error c) :
    phaseRecords (s.setPhase (.faulted c)) = true := by
  rcases fetchInstr_cases s with ⟨hp, e⟩ | ⟨hp, hd, e⟩ | ⟨_, _, _, e⟩ <;> rw [h] at e <;> cases e
  · simpa [phaseRecords, ← Bool.not_eq_true, inMemory_iff] using hp
  · have hup : ¬ (decoder (wordAt s s.pc.toNat)).upperZero = true := by
      rw [upperZero_iff]
      intro hlt
      rw [decode_eq, if_pos hlt] at hd
      cases hd
    simpa [phaseRecords, inMemory_iff] using ⟨hp, by simpa using hup⟩

/-- An instruction fetched from the memory leaves right records: `halt` a `pc` inside, a fault its address (R160, R174). -/
theorem phaseRecords_of_exec {i : Instr} {s t : State} (hs : s.phase = .running) (hp : 0 ≤ s.pc ∧ s.pc ≤ 65535)
    (h : exec i s = .next t) : phaseRecords t = true := by
  cases execEnds_of_exec h with
  | fault regA offset out =>
    rw [← inMemory_iff] at hp out
    simp [phaseRecords, hp, out]
  | halt => exact (inMemory_iff _).2 hp
  | register | pcOnly | store => simp [phaseRecords, hs]

/-- Every instruction keeps the memory's canonical form: a store goes to an address of the memory (R26). -/
theorem wf_mem_of_exec {i : Instr} {s t : State} (hm : Memory.wf s.mem = true) (h : exec i s = .next t) :
    Memory.wf t.mem = true := by
  cases execEnds_of_exec h with
  | fault | halt | register | pcOnly => exact hm
  | store regA regB offset _ inside => exact Memory.wf_store _ hm (inMemory_toNat ((inMemory_iff _).2 inside))

/-- An instruction fetched from the memory leaves `pc` in its range (R25). -/
theorem pcInRange_of_exec {i : Instr} {s t : State} (hi : i.wf = true) (hp : 0 ≤ s.pc ∧ s.pc ≤ 65535)
    (hr : pcInRange s = true) (h : exec i s = .next t) : pcInRange t = true := by
  obtain ⟨-, -, hread, -⟩ := exec_keepsFixed h
  rcases exec_pc_or_fault hp h with hpc | ⟨c, rfl⟩
  · exact pcInRange_of_nextPc hi hp hpc hread
  · exact hr

theorem inv_of_running_step {s t : State} (hs : s.phase = .running) (hinv : s.inv = true) (h : step s = .next t) :
    t.inv = true := by
  rcases step_running_next hs h with ⟨c, hf, rfl⟩ | ⟨i, _, hi, hp, he⟩
  · exact State.inv_setPhase hinv (phaseRecords_of_fetchInstr_eq_error hf)
  · obtain ⟨hm, hl, hr, -⟩ := s.inv_iff.1 hinv
    obtain ⟨hcount, -⟩ := exec_keepsFixed he
    exact (State.inv_iff t).2
      ⟨wf_mem_of_exec hm he, hcount ▸ hl, pcInRange_of_exec hi hp hr he, phaseRecords_of_exec hs hp he⟩

/-- The load gives the invariant, whether it ends in Running, LoadOverflow or LoadValueRange (R190 to R192). -/
theorem inv_of_load {s t : State} (hinv : s.inv = true) (h : load s = .next t) : t.inv = true := by
  obtain ⟨-, hl, hr, -⟩ := s.inv_iff.1 hinv
  obtain ⟨m, n, c, e, hm, -, hn, hc⟩ := loadLines_cases s.input 0 [] (Nat.zero_le _) Memory.wf_nil
  rcases hc with rfl | rfl | ⟨rfl, hlt⟩
  · rw [load_ok e] at h
    cases h
    exact (State.inv_iff _).2 ⟨hm, hn, by simp [pcInRange_iff], rfl⟩
  · rw [load_fault e] at h
    cases h
    exact (State.inv_iff _).2 ⟨hm, hl, hr, by simp [phaseRecords]⟩
  · rw [load_fault e] at h
    cases h
    exact (State.inv_iff _).2 ⟨hm, hl, hr, by simpa [phaseRecords] using hlt⟩

/-- Settles O29: the load establishes the invariant's parts afresh, a fault keeps all but the phase, and a completed
instruction keeps each part by a lemma of its own. -/
theorem everyStepKeepsInvariant : Obligations.EveryStepKeepsInvariant := by
  unfold Obligations.EveryStepKeepsInvariant
  intro s t hinv h
  cases hp : s.phase with
  | loading => exact inv_of_load hinv (step_loading hp ▸ h)
  | running => exact inv_of_running_step hp hinv h
  | halted => rw [step_halted hp] at h; cases h
  | faulted c => rw [step_faulted hp] at h; cases h

/-- Settles O19: a step that does not fault ran a fetched instruction, which leaves `pc` at `nextPc`. -/
theorem pcStaysInStatedRange : Obligations.PcStaysInStatedRange := by
  unfold Obligations.PcStaysInStatedRange
  intro s t hs h
  refine ⟨fun hout => ?_, fun hok => ?_⟩
  · rcases step_running hs with ⟨_, e⟩ | ⟨hp, _⟩ | ⟨hp, _⟩
    · rw [e] at h
      cases h
      rfl
    · omega
    · omega
  · rcases step_running_next hs h with ⟨c, _, rfl⟩ | ⟨i, hf, hi, hp, he⟩
    · exact absurd rfl (hok c)
    · obtain ⟨-, -, hread, -⟩ := exec_keepsFixed he
      rcases exec_pc_or_fault hp he with hpc | ⟨c, rfl⟩
      · have hrange := (pcInRange_iff t).1 (pcInRange_of_nextPc hi hp hpc hread)
        rw [hread] at hrange
        exact ⟨hp, ⟨i, hf, hpc⟩, hrange⟩
      · exact absurd rfl (hok c)

end Sys2Proof.Machine

/-! ## What an instruction reads and writes (R21, R22, R28, R29, R35) -/

namespace Sys2Proof.Machine

/-- What R22 says of two runs of `i`, from `s` to `t` and from `s.setX v` to `u`: the next states are equal but for
registers, the written register is equal where `i` completes, and every register not written keeps its own value. -/
structure UsesNamedRegisters (i : Instr) (s : State) (v : Vector Word 8) (t u : State) : Prop where
  sameButRegs : u = t.setX u.x
  written : ∀ r, writesOf i = some r → (∀ c, t.phase ≠ .faulted c) → readReg u r = readReg t r
  kept : ∀ r, writesOf i ≠ some r → readReg t r = readReg s r ∧ readReg u r = readReg (s.setX v) r
  fault : ∀ c, t.phase = .faulted c → t.x = s.x ∧ u.x = v

/-- A next state with the old registers meets R22 where the instruction writes none or faulted. -/
theorem usesNamedRegisters_of_kept {i : Instr} {s t : State} (v : Vector Word 8) (ht : t.x = s.x)
    (hw : writesOf i = none ∨ ∃ c, t.phase = .faulted c) : UsesNamedRegisters i s v t (t.setX v) where
  sameButRegs := rfl
  written r hr hok := by
    rcases hw with hw | ⟨c, hc⟩
    · rw [hw] at hr
      cases hr
    · exact absurd hc (hok c)
  kept r _ := ⟨readReg_congr ht r, rfl⟩
  fault _ _ := ⟨ht, rfl⟩

/-- A next state with the same value written to the same register meets R22. -/
theorem usesNamedRegisters_of_written {i : Instr} {s t : State} {d : RegIx} {w : Word} (v : Vector Word 8)
    (hw : writesOf i = some d) (ht : t.x = (writeReg s d w).x) (hok : ∀ c, t.phase ≠ .faulted c) :
    UsesNamedRegisters i s v t (t.setX (writeReg (s.setX v) d w).x) := by
  have ht' := readReg_congr ht
  have hu : ∀ r, readReg (t.setX (writeReg (s.setX v) d w).x) r = readReg (writeReg (s.setX v) d w) r := fun _ => rfl
  refine ⟨rfl, fun r hr _ => ?_, fun r hr => ?_, fun c hc => absurd hc (hok c)⟩
  · obtain rfl : d = r := by simpa [hw] using hr
    rw [hu, ht', readReg_writeReg_self, readReg_writeReg_self]
  · have hne : r ≠ d := by rintro rfl; exact hr hw
    rw [hu, ht', readReg_writeReg_other _ _ hne, readReg_writeReg_other _ _ hne]
    exact ⟨rfl, rfl⟩

/-- One instruction from two running states that differ in registers it does not read. -/
theorem exec_setX {i : Instr} {s t : State} {v : Vector Word 8} (hs : s.phase = .running)
    (hreads : ∀ r ∈ readsOf s.jalrReading i, readReg (s.setX v) r = readReg s r) (h : exec i s = .next t) :
    ∃ u, exec i (s.setX v) = .next u ∧ UsesNamedRegisters i s v t u := by
  cases i with
  | add a b d =>
    have ha := hreads a (by simp [readsOf])
    have hb := hreads b (by simp [readsOf])
    cases h
    exact ⟨_, by simp only [exec, execAdd, ha, hb]; rfl, usesNamedRegisters_of_written v rfl rfl (by simp [hs])⟩
  | nor a b d =>
    have ha := hreads a (by simp [readsOf])
    have hb := hreads b (by simp [readsOf])
    cases h
    exact ⟨_, by simp only [exec, execNor, ha, hb]; rfl, usesNamedRegisters_of_written v rfl rfl (by simp [hs])⟩
  | lw a b off =>
    have ha := effectiveAddress_congr off (hreads a (by simp [readsOf]))
    rw [exec_lw_eq] at h ⊢
    rw [ha]
    split at h <;> cases h
    · next hea => exact ⟨_, if_pos hea, usesNamedRegisters_of_written v rfl rfl (by simp [hs])⟩
    · next hea => exact ⟨_, if_neg hea, usesNamedRegisters_of_kept v rfl (.inr ⟨_, rfl⟩)⟩
  | sw a b off =>
    have ha := effectiveAddress_congr off (hreads a (by simp [readsOf]))
    have hb := hreads b (by simp [readsOf])
    rw [exec_sw_eq] at h ⊢
    rw [ha, hb]
    split at h <;> cases h
    · next hea => exact ⟨_, if_pos hea, usesNamedRegisters_of_kept v rfl (.inl rfl)⟩
    · next hea => exact ⟨_, if_neg hea, usesNamedRegisters_of_kept v rfl (.inr ⟨_, rfl⟩)⟩
  | beq a b off =>
    have ha := hreads a (by simp [readsOf])
    have hb := hreads b (by simp [readsOf])
    cases h
    exact ⟨_, by simp only [exec, execBeq, regsEqual, ha, hb]; rfl, usesNamedRegisters_of_kept v rfl (.inl rfl)⟩
  | jalr a b =>
    cases hr : s.jalrReading with
    | sequential =>
      simp only [exec, execJalr, State.setX_jalrReading, hr, jalrSequential_eq] at h ⊢
      cases h
      exact ⟨_, rfl, usesNamedRegisters_of_written v rfl rfl (by simp [hs])⟩
    | oldRegB =>
      have hb := hreads b (by simp [readsOf, hr])
      simp only [exec, execJalr, State.setX_jalrReading, hr, jalrOldRegB, hb] at h ⊢
      cases h
      exact ⟨_, rfl, usesNamedRegisters_of_written v rfl rfl (by simp [hs])⟩
  | halt => cases h; exact ⟨_, rfl, usesNamedRegisters_of_kept v rfl (.inl rfl)⟩
  | noop => cases h; exact ⟨_, rfl, usesNamedRegisters_of_kept v rfl (.inl rfl)⟩

/-- Settles O11, instruction by instruction: the registers read fix the value written and the address used. -/
theorem instructionsReadAndWriteNamedRegisters : Obligations.InstructionsReadAndWriteNamedRegisters := by
  unfold Obligations.InstructionsReadAndWriteNamedRegisters
  intro i s t v hs hreads h
  obtain ⟨u, hu, hsame, hwritten, hkept, hfault⟩ := exec_setX hs hreads h
  exact ⟨u, hu, hsame, hwritten, hkept, hfault⟩

/-- Settles O10, by the read after a write to the same and to another register. -/
theorem everyRegisterKeepsItsWrite : Obligations.EveryRegisterKeepsItsWrite := by
  unfold Obligations.EveryRegisterKeepsItsWrite
  exact fun s r v => ⟨readReg_writeReg_self s r v, fun _ h => readReg_writeReg_other s v h, wordAt_writeReg s r v⟩

/-- Other values of the two counters. -/
def State.withCounters (s : State) (n m : Nat) : State := { s with loadedCount := n, instrCount := m }

theorem effectiveAddress_withCounters (s : State) (n m : Nat) (a : RegIx) (off : Int) :
    effectiveAddress (s.withCounters n m) a off = effectiveAddress s a off := rfl

theorem raise_withCounters {c : FaultCause} {s t : State} (n m : Nat) (h : raise c s = .next t) :
    raise c (s.withCounters n m) = .next (t.withCounters n (m + (t.instrCount - s.instrCount))) := by
  cases h
  simp [raise_eq, State.withCounters, State.setPhase]

theorem retire_withCounters {s t : State} (n m : Nat) (h : retire s = .next t) :
    retire (s.withCounters n m) = .next (t.withCounters n (m + (t.instrCount - s.instrCount))) := by
  cases h
  simp [retire_eq, State.withCounters, State.setPc, State.setInstrCount]

/-- No instruction can read the two counters, and each raises the count by as much whatever its value. -/
theorem exec_withCounters {i : Instr} {s t : State} (n m : Nat) (h : exec i s = .next t) :
    exec i (s.withCounters n m) = .next (t.withCounters n (m + (t.instrCount - s.instrCount))) := by
  cases i with
  | add a b d => exact retire_withCounters (s := writeReg s d _) n m h
  | nor a b d => exact retire_withCounters (s := writeReg s d _) n m h
  | lw a b off =>
    rw [exec_lw_eq] at h ⊢
    rw [effectiveAddress_withCounters]
    split at h
    · next hea => rw [if_pos hea]; exact retire_withCounters (s := writeReg s b _) n m h
    · next hea => rw [if_neg hea]; exact raise_withCounters n m h
  | sw a b off =>
    rw [exec_sw_eq] at h ⊢
    rw [effectiveAddress_withCounters]
    split at h
    · next hea => rw [if_pos hea]; exact retire_withCounters (s := s.setMem _) n m h
    · next hea => rw [if_neg hea]; exact raise_withCounters n m h
  | beq a b off => exact retire_withCounters (s := s.setPc _) n m h
  | jalr a b =>
    cases hr : s.jalrReading with
    | sequential =>
      have hr' : (s.withCounters n m).jalrReading = .sequential := hr
      simp only [exec, execJalr, hr, hr'] at h ⊢
      exact retire_withCounters (s := jalrSequential s b) n m h
    | oldRegB =>
      have hr' : (s.withCounters n m).jalrReading = .oldRegB := hr
      simp only [exec, execJalr, hr, hr'] at h ⊢
      exact retire_withCounters (s := jalrOldRegB s b) n m h
  | halt =>
    cases h
    simp [exec, execHalt, State.withCounters, State.setPhase, State.setInstrCount]
  | noop => exact retire_withCounters n m h

/-- Settles O25: fetch and decode do not see the counters, and neither does the fault or the instruction that follows. -/
theorem countersCannotBeRead : Obligations.CountersCannotBeRead := by
  unfold Obligations.CountersCannotBeRead
  intro s t n m hs h
  have hs' : (s.withCounters n m).phase = .running := hs
  have hf' : fetchInstr (s.withCounters n m) = fetchInstr s := rfl
  change step (s.withCounters n m) = .next (t.withCounters n (m + (t.instrCount - s.instrCount)))
  rcases hf : fetchInstr s with c | i
  · simp only [step, hs, hs', hf', hf] at h ⊢
    exact raise_withCounters n m h
  · simp only [step, hs, hs', hf', hf] at h ⊢
    exact exec_withCounters n m h

/-- Settles O21: of the things a step can do, only a completed `sw` writes the memory, and only its own address. -/
theorem onlyStoresChangeMemory : Obligations.OnlyStoresChangeMemory := by
  unfold Obligations.OnlyStoresChangeMemory
  intro s t addr hs h
  rcases step_running_next hs h with ⟨c, _, rfl⟩ | ⟨i, hf, _, _, he⟩
  · exact .inl rfl
  cases execEnds_of_exec he with
  | fault | halt | register | pcOnly => exact .inl rfl
  | store regA regB offset isStore inside =>
    simp only [wordAt_setInstrCount, wordAt_setPc, wordAt_setMem_store]
    by_cases haddr : addr = (effectiveAddress s regA offset).toNat
    · exact .inr ⟨regA, regB, offset, isStore ▸ hf, by omega, if_pos haddr⟩
    · exact .inl (if_neg haddr)

end Sys2Proof.Machine

/-! ## What lasts along a run (R28, R35, R50) -/

namespace Sys2Proof.Machine

/-- Settles O20, by induction over the run's steps, each of which keeps the four fields. -/
theorem loadedCountNeverChanges : Obligations.LoadedCountNeverChanges := by
  unfold Obligations.LoadedCountNeverChanges
  intro k s t hs h
  exact h.rel_of_steps keepsFixed_refl (fun _ _ _ => keepsFixed_trans) (by simp [hs])
    fun _ _ _ _ _ => keepsFixed_of_running_step

/-- Settles O23, by induction over the run's steps: each keeps the word, as it is no `sw` to its address. -/
theorem memoryWordsLastUntilStored : Obligations.MemoryWordsLastUntilStored := by
  unfold Obligations.MemoryWordsLastUntilStored
  intro k s t a hs h hno
  refine h.rel_of_steps (R := fun u u' => wordAt u' a = wordAt u a) (fun _ => rfl) (fun _ _ _ h h' => h'.trans h)
    (by simp [hs]) fun j u u' hj hu hrun hstep => ?_
  rcases onlyStoresChangeMemory u u' a hrun hstep with hkept | ⟨regA, regB, offset, hf, hea, _⟩
  · exact hkept
  · exact absurd hea (hno j u regA regB offset hj hu hf)

end Sys2Proof.Machine

/-! ## Start-up (R32, R35, R36) -/

namespace Sys2Proof.Machine

theorem readReg_boot (k : Nat) (reading : JalrReading) (input : List Line) (r : RegIx) :
    readReg (State.boot k reading input) r = 0#32 := by
  simp [readReg, State.boot, State.reset]

/-- At start-up no word is listed, and a loaded count of 0 and a `pc` of 0 are in range under both readings (log 5). -/
theorem inv_boot (k : Nat) (reading : JalrReading) (input : List Line) : (State.boot k reading input).inv = true :=
  (State.inv_iff _).2 ⟨Memory.wf_nil, Nat.zero_le _, (pcInRange_iff _).2 (by simp [State.boot, State.reset]), rfl⟩

/-- Settles O28: reset is the start-up state numbered 0 with no input. -/
theorem resetMeetsInvariant : Obligations.ResetMeetsInvariant := by
  unfold Obligations.ResetMeetsInvariant
  exact ⟨inv_boot 0 .sequential [], fun k reading input => ⟨inv_boot k reading input, readReg_boot k reading input⟩⟩

/-- Settles O33: no address is listed at start-up, so every word is its draw. -/
theorem startUpIsLoadingWithZeroRegisters : Obligations.StartUpIsLoadingWithZeroRegisters := by
  unfold Obligations.StartUpIsLoadingWithZeroRegisters
  exact fun k reading input => ⟨rfl, readReg_boot k reading input, fun _ => rfl⟩

end Sys2Proof.Machine

/-! PROOFS of the statements about the memory (spec 20_memory.md): a read and a fetch after a write, and a store over the
next instruction. -/

/-! ## Reads and fetches after a write (R47 to R50) -/

namespace Sys2Proof.Machine

/-- `wordAt_setMem_store` at two addresses that are not negative, read as integers. -/
theorem wordAt_setMem_store_toNat (s : State) {addr b : Int} (v : Word) (ha : 0 ≤ addr) (hb : 0 ≤ b) :
    wordAt (s.setMem (Memory.store s.mem addr.toNat v)) b.toNat = if b = addr then v else wordAt s b.toNat := by
  have heq : b.toNat = addr.toNat ↔ b = addr := by omega
  rw [wordAt_setMem_store]
  simp only [heq]

/-- `MemRead` after a store finds the word at its address, and at every other integer answers as before. -/
theorem memRead_setMem_store (s : State) {addr : Int} (b : Int) (v : Word) (ha : 0 ≤ addr ∧ addr ≤ 65535) :
    memRead (s.setMem (Memory.store s.mem addr.toNat v)) b = if b = addr then .ok v else memRead s b := by
  rw [memRead_eq, memRead_eq]
  by_cases hb : 0 ≤ b ∧ b ≤ 65535
  · rw [if_pos hb, if_pos hb, wordAt_setMem_store_toNat s v ha.1 hb.1, apply_ite Except.ok]
  · have hne : b ≠ addr := by rintro rfl; exact hb ha
    rw [if_neg hb, if_neg hb, if_neg hne, State.setMem_pc]

/-- `Fetch` after a store finds the word where `pc` is its address, and elsewhere answers as before. -/
theorem fetch_setMem_store (s : State) {addr : Int} (v : Word) (ha : 0 ≤ addr ∧ addr ≤ 65535) :
    fetch (s.setMem (Memory.store s.mem addr.toNat v)) = if s.pc = addr then .ok v else fetch s := by
  rw [fetch_eq, fetch_eq, State.setMem_pc]
  by_cases hp : 0 ≤ s.pc ∧ s.pc ≤ 65535
  · rw [if_pos hp, if_pos hp, wordAt_setMem_store_toNat s v ha.1 hp.1, apply_ite Except.ok]
  · have hne : s.pc ≠ addr := by intro h; exact hp (h ▸ ha)
    rw [if_neg hp, if_neg hp, if_neg hne]

/-- Settles O22, by what `MemRead` and `Fetch` answer after a store. -/
theorem readsReturnTheLastWrite : Obligations.ReadsReturnTheLastWrite := by
  unfold Obligations.ReadsReturnTheLastWrite
  intro s addr v h0 h1
  have ha := And.intro h0 h1
  refine ⟨_, (memWrite_eq s addr v).trans (if_pos ha), ?_, fun hp => ?_, fun b hb => ?_, fun hp => ?_⟩
  · rw [memRead_setMem_store s addr v ha, if_pos rfl]
  · rw [fetch_setMem_store s v ha, if_pos hp]
  · rw [memRead_setMem_store s b v ha, if_neg hb]
  · rw [fetch_setMem_store s v ha, if_neg hp]

end Sys2Proof.Machine

/-! ## A store over the next instruction (R53, R195) -/

namespace Sys2Proof.Machine

theorem pc_inside_of_fetchInstr_eq_ok {s : State} {i : Instr} (h : fetchInstr s = .ok i) : 0 ≤ s.pc ∧ s.pc ≤ 65535 := by
  rcases fetchInstr_cases s with ⟨_, e⟩ | ⟨hp, _⟩ | ⟨hp, _⟩
  · rw [e] at h
    cases h
  · exact hp
  · exact hp

theorem step_eq_exec_of_fetchInstr {s : State} {i : Instr} (hs : s.phase = .running) (h : fetchInstr s = .ok i) :
    step s = exec i s := by
  simp only [step, hs, h]

/-- A running core whose fetched word decodes runs that instruction (R102). -/
theorem step_of_fetch_of_decode_eq_ok {s : State} {w : Word} {i : Instr} (hs : s.phase = .running)
    (hw : fetch s = .ok w) (hd : decode w = .ok i) : step s = exec i s :=
  step_eq_exec_of_fetchInstr hs (by simp only [fetchInstr, hw, hd])

/-- A running core whose fetched word does not decode faults with that word (R172). -/
theorem step_of_fetch_of_decode_eq_error {s : State} {w : Word} {e : DecodeError} (hs : s.phase = .running)
    (hw : fetch s = .ok w) (hd : decode w = .error e) :
    step s = .next (s.setPhase (.faulted (.invalidOpcode s.pc w))) := by
  cases e
  simp only [step, hs, fetchInstr, hw, hd, raise_eq]

/-- Settles O24: the store retires to `pc + 1`, the address it wrote, so the next step fetches the stored word. -/
theorem storedWordRunsNext : Obligations.StoredWordRunsNext := by
  unfold Obligations.StoredWordRunsNext
  intro s regA regB offset hs hf hea hpc
  have hin : 0 ≤ s.pc + 1 ∧ s.pc + 1 ≤ 65535 := by
    have := pc_inside_of_fetchInstr_eq_ok hf
    omega
  have hstep := step_eq_exec_of_fetchInstr hs hf
  rw [exec_sw_eq, hea, if_pos hin, retire_eq] at hstep
  -- Setting `pc` and the count commutes with the store, so the retired state is a store where `pc` is its address.
  have hw := (fetch_setMem_store ((s.setPc (s.pc + 1)).setInstrCount (s.instrCount + 1)) (readReg s regB) hin).trans
    (if_pos rfl)
  exact ⟨_, hstep, rfl, hw, fun _ => step_of_fetch_of_decode_eq_ok hs hw, fun _ => step_of_fetch_of_decode_eq_error hs hw⟩

end Sys2Proof.Machine

/-! PROOFS of the statements about the encoding (spec 30_encoding.md): the decoder's fields, the encoder's words, the round
trips between the two, the assembler's labels and the text it writes. -/

/-! ## The decoder's fields, class and instruction (R63, R80 to R88) -/

namespace Sys2Proof

/-- `Class` of the opcode of each number (R63, R83). -/
theorem formatOf_opcodeOfBits (b : BitVec 3) : formatOf (opcodeOfBits b) =
    if b.toNat ≤ 1 then .R else if b.toNat ≤ 4 then .I else if b.toNat = 5 then .J else .O := by
  revert b
  decide

/-- The class of a word by its opcode's number, which stands in bits 24:22 (R82, R83). -/
theorem decoder_cls (w : Word) : (decoder w).cls =
    if w.toNat / 2 ^ 22 % 8 ≤ 1 then .R else if w.toNat / 2 ^ 22 % 8 ≤ 4 then .I
    else if w.toNat / 2 ^ 22 % 8 = 5 then .J else .O :=
  (formatOf_opcodeOfBits _).trans (by rw [field_toNat]; rfl)

theorem decoder_cls_eq_R_iff (w : Word) : (decoder w).cls = .R ↔ w.toNat / 2 ^ 22 % 8 ≤ 1 := by
  grind [decoder_cls]

theorem decoder_cls_eq_I_iff (w : Word) :
    (decoder w).cls = .I ↔ 2 ≤ w.toNat / 2 ^ 22 % 8 ∧ w.toNat / 2 ^ 22 % 8 ≤ 4 := by
  grind [decoder_cls]

theorem decoder_cls_eq_J_iff (w : Word) : (decoder w).cls = .J ↔ w.toNat / 2 ^ 22 % 8 = 5 := by
  grind [decoder_cls]

theorem decoder_cls_eq_O_iff (w : Word) : (decoder w).cls = .O ↔ 6 ≤ w.toNat / 2 ^ 22 % 8 := by
  grind [decoder_cls]

/-- Settles O40, field by field: each is a quotient and a remainder of the word's value. -/
theorem decoderFieldsInArithmeticForm : Obligations.DecoderFieldsInArithmeticForm := by
  unfold Obligations.DecoderFieldsInArithmeticForm
  intro w
  have hoff : (decoder w).offset = sext16 (w.extractLsb' 0 16) := rfl
  have hlow : (w.extractLsb' 0 16).toNat = w.toNat % 65536 := by simp
  have hfit := (offsetFits_iff _).1 (offsetFits_sext16 (w.extractLsb' 0 16))
  refine ⟨field_toNat w 22 3, rfl, field_toNat w 19 3, field_toNat w 16 3, ?_, ?_, hfit.1, hfit.2, upperZero_iff w⟩
  · rw [← Nat.div_one w.toNat]
    exact field_toNat w 0 3
  · rw [hoff, sext16_eq, hlow]

/-- Settles O41, by the class of each opcode number. -/
theorem classDecodersValidateTheClass : Obligations.ClassDecodersValidateTheClass := by
  unfold Obligations.ClassDecodersValidateTheClass
  intro w
  have hR := decoder_cls_eq_R_iff w
  have hI := decoder_cls_eq_I_iff w
  have hJ := decoder_cls_eq_J_iff w
  have hO := decoder_cls_eq_O_iff w
  exact ⟨fun h => if_pos (hR.2 h), fun h => if_neg (mt hR.1 (by omega)),
    fun h => if_pos (hI.2 h), fun h => if_neg (mt hI.1 (by omega)),
    fun h => if_pos (hJ.2 h), fun h => if_neg (mt hJ.1 h),
    fun h => if_pos (hO.2 h), fun h => if_neg (mt hO.1 (by omega))⟩

/-- Settles O42: a negative signed reading is a value of at least 2^31, and what decodes is well formed. -/
theorem illegalWordsAreExactlyUpperBits : Obligations.IllegalWordsAreExactlyUpperBits := by
  unfold Obligations.IllegalWordsAreExactlyUpperBits
  intro w
  have refused (h : 2 ^ 25 ≤ w.toNat) : decode w = .error .upperBitsNonZero := by
    rw [decode_eq, if_neg (by omega)]
  refine ⟨refused, fun h => refused ?_, fun h => ?_⟩
  · have := BitVec.toInt_neg_iff.1 h
    omega
  · have hd : decode w = .ok (instrOf (decoder w)) := by rw [decode_eq, if_pos h]
    exact ⟨_, hd, wf_of_decode_eq_ok hd⟩

/-- The instruction of two decodings is the same where the fields of the opcode's format are (R86). -/
theorem instrOf_congr {d e : DecoderOut} (ho : d.opcode = e.opcode)
    (hab : formatOf (opcodeOfBits d.opcode) ≠ .O → d.regA = e.regA ∧ d.regB = e.regB)
    (hd : formatOf (opcodeOfBits d.opcode) = .R → d.destReg = e.destReg)
    (hoff : formatOf (opcodeOfBits d.opcode) = .I → d.offset = e.offset) : instrOf d = instrOf e := by
  unfold instrOf
  rw [← ho]
  cases hop : opcodeOfBits d.opcode with
  | add | nor => simp [hab (by simp [hop, formatOf]), hd (by simp [hop, formatOf])]
  | lw | sw | beq => simp [hab (by simp [hop, formatOf]), hoff (by simp [hop, formatOf])]
  | jalr => simp [hab (by simp [hop, formatOf])]
  | halt | noop => rfl

/-- Words that agree from bit `lo` up have the same fields there. -/
theorem field_congr {v w : Word} {lo : Nat} (n : Nat) (h : v.toNat / 2 ^ lo = w.toNat / 2 ^ lo) :
    v.extractLsb' lo n = w.extractLsb' lo n :=
  field_eq (by rw [field_toNat, h])

/-- Words with the same bits 31:22 decode alike where they name the same instruction. -/
theorem decode_congr {v w : Word} (h : v.toNat / 2 ^ 22 = w.toNat / 2 ^ 22)
    (hi : instrOf (decoder v) = instrOf (decoder w)) : decode v = decode w := by
  have hup : v.toNat < 2 ^ 25 ↔ w.toNat < 2 ^ 25 := by omega
  simp only [decode_eq, hup, hi]

/-- Settles O43: the instruction of each class depends on the fields of that class alone. -/
theorem unusedBitsAreIgnored : Obligations.UnusedBitsAreIgnored := by
  unfold Obligations.UnusedBitsAreIgnored
  intro v w h
  have hcls : (decoder v).cls = formatOf (opcodeOfBits (decoder v).opcode) := rfl
  have hop : (decoder v).opcode = (decoder w).opcode := field_congr 3 h
  have hregs (h16 : v.toNat / 2 ^ 16 = w.toNat / 2 ^ 16) :
      (decoder v).regA = (decoder w).regA ∧ (decoder v).regB = (decoder w).regB :=
    ⟨congrArg regOfBits (field_congr 3 (by omega)), congrArg regOfBits (field_congr 3 h16)⟩
  rw [hcls]
  refine ⟨fun hR h16 h3 => ?_, fun hJ h16 => ?_, fun hO => ?_⟩
  · have hdest : (decoder v).destReg = (decoder w).destReg :=
      congrArg regOfBits (field_eq (by simpa [field_toNat] using h3))
    exact decode_congr h (instrOf_congr hop (fun _ => hregs h16) (fun _ => hdest) (by simp [hR]))
  · exact decode_congr h (instrOf_congr hop (fun _ => hregs h16) (by simp [hJ]) (by simp [hJ]))
  · exact decode_congr h (instrOf_congr hop (by simp [hO]) (by simp [hO]) (by simp [hO]))

/-- Settles O39, by evaluating the decoder on the eight words. -/
theorem sampleWordsDecode : Obligations.SampleWordsDecode := by
  unfold Obligations.SampleWordsDecode
  exact ⟨rfl, rfl, rfl, rfl, rfl, rfl, rfl, rfl⟩

end Sys2Proof

/-! ## The four layouts and what the decoder reads from them (R64 to R67, R87) -/

namespace Sys2Proof

/-! Each of the other three layouts is the I-type layout with the unused bits 0. -/

theorem packR_eq_packI (opc a b d : BitVec 3) : packR opc a b d = packI opc a b (0#13 ++ d) :=
  BitVec.eq_of_toNat_eq (by
    rw [packR_toNat, packI_toNat, toNat_append_add, BitVec.toNat_ofNat, Nat.zero_mod, Nat.zero_mul, Nat.zero_add])

theorem packJ_eq_packI (opc a b : BitVec 3) : packJ opc a b = packI opc a b 0#16 :=
  BitVec.eq_of_toNat_eq (by simp [packJ_toNat, packI_toNat])

theorem packO_eq_packI (opc : BitVec 3) : packO opc = packI opc 0#3 0#3 0#16 :=
  BitVec.eq_of_toNat_eq (by simp [packO_toNat, packI_toNat])

/-- What the decoder reads from a word of the I-type layout, whatever its opcode. -/
theorem decoder_packI (opc a b : BitVec 3) (off : BitVec 16) : decoder (packI opc a b off) =
    { opcode := opc, cls := formatOf (opcodeOfBits opc), regA := regOfBits a, regB := regOfBits b,
      destReg := regOfBits (off.extractLsb' 0 3), offset := sext16 off, upperZero := true } := by
  have := opc.isLt; have := a.isLt; have := b.isLt; have := off.isLt
  have hw := packI_toNat opc a b off
  have hz := (upperZero_iff (packI opc a b off)).2 (by omega)
  have hd : (off.extractLsb' 0 3).toNat = off.toNat % 8 := by simp [BitVec.extractLsb'_toNat]
  obtain ⟨eo, ec, ea, eb, ed, eoff⟩ := decoder_fields (w := packI opc a b off) (opc := opc) (a := a) (b := b)
    (d := off.extractLsb' 0 3) (off := off) (by omega) (by omega) (by omega) (by omega) (by omega)
  exact (DecoderOut.mk.injEq ..).mpr ⟨eo, ec, ea, eb, ed, eoff, hz⟩

/-- The destination register's field stands below the 13 unused bits of the R-type layout (R64). -/
theorem extractLsb'_zero_append (d : BitVec 3) : (0#13 ++ d).extractLsb' 0 3 = d := by
  apply BitVec.eq_of_toNat_eq
  have := d.isLt
  simp only [BitVec.extractLsb'_toNat, toNat_append_add, BitVec.toNat_ofNat, Nat.shiftRight_zero]
  omega

/-- What the decoder reads from a word of the R-type layout. -/
theorem decoder_packR (opc a b d : BitVec 3) : decoder (packR opc a b d) =
    { opcode := opc, cls := formatOf (opcodeOfBits opc), regA := regOfBits a, regB := regOfBits b,
      destReg := regOfBits d, offset := sext16 (0#13 ++ d), upperZero := true } := by
  rw [packR_eq_packI, decoder_packI, extractLsb'_zero_append]

/-- Decoding the word of a well-formed instruction gives it back (R87). -/
theorem decode_encode {i : Instr} (hi : i.wf = true) : decode (encode i) = .ok i := by
  cases i with
  | add a b d | nor a b d => simp [encode, decode, decoder_packR, instrOf, opcodeOfBits]
  | lw a b off | sw a b off | beq a b off =>
    obtain ⟨hmin, hmax⟩ := (offsetFits_iff off).1 hi
    simp [encode, decode, decoder_packI, instrOf, opcodeOfBits, sext16_bits16 hmin hmax]
  | jalr a b => simp [encode, decode, packJ_eq_packI, decoder_packI, instrOf, opcodeOfBits]
  | halt | noop => simp [encode, decode, packO_eq_packI, decoder_packI, instrOf, opcodeOfBits]

/-- Settles O44, by what the decoder reads from each layout. -/
theorem decodeOfEncodeIsIdentity : Obligations.DecodeOfEncodeIsIdentity := by
  unfold Obligations.DecodeOfEncodeIsIdentity
  exact fun _ => decode_encode

end Sys2Proof

/-! ## The encoder's outputs (R72 to R79, R87) -/

namespace Sys2Proof

/-- An offset's field holds the offset mod 2^16 (R69). -/
theorem bits16_toNat (i : Int) : ((bits16 i).toNat : Int) = i % 65536 := by
  simp only [bits16, BitVec.toNat_ofInt]
  omega

/-- `bits32` holds an integer mod 2^32 (R15). -/
theorem bits32_toNat (i : Int) : ((bits32 i).toNat : Int) = i % 2 ^ 32 := by
  simp only [bits32, BitVec.toNat_ofInt]
  omega

/-- The pattern of a signed reading is the word itself (R15). -/
theorem bits32_wordToInt (w : Word) : bits32 (wordToInt w) = w := by
  simp [bits32, wordToInt]

/-- An integer of 32 bits is the signed reading of its pattern (R15). -/
theorem wordToInt_bits32 {i : Int} (h1 : -2147483648 ≤ i) (h2 : i ≤ 2147483647) : wordToInt (bits32 i) = i := by
  rw [wordToInt, bits32, BitVec.toInt_ofInt, Int.bmod_def]
  split <;> omega

/-- A register operand's field is that of the register it is mod 8 (R72). -/
theorem regField_eq_bitsOfReg {r : RegIx} {arg : Int} (h : (r.val : Int) = arg % 8) : regField arg = bitsOfReg r := by
  apply BitVec.eq_of_toNat_eq
  have := regField_toNat arg
  have := r.isLt
  simp only [bitsOfReg, BitVec.toNat_ofNat]
  omega

theorem exists_reg_eq_emod (arg : Int) : ∃ r : RegIx, (r.val : Int) = arg % 8 :=
  ⟨regOfBits (regField arg), regField_toNat arg⟩

theorem regField_emod (arg : Int) : regField (arg % 8) = regField arg := by
  apply BitVec.eq_of_toNat_eq
  have := regField_toNat arg
  have := regField_toNat (arg % 8)
  omega

section Outputs
variable (draw : Word) {opc : Opcode} (arg0 arg1 arg2 : Int)

theorem encoder_R (h : formatOf opc = .R) : encoder draw (.instr opc) arg0 arg1 arg2 =
    ⟨packR (bitsOfOpcode opc) (regField arg0) (regField arg1) (regField arg2), false⟩ := by
  simp only [encoder, h]

theorem encoder_I (h : formatOf opc = .I) : encoder draw (.instr opc) arg0 arg1 arg2 =
    if -32768 ≤ arg2 ∧ arg2 ≤ 32767 then
      ⟨packI (bitsOfOpcode opc) (regField arg0) (regField arg1) (bits16 arg2), false⟩
    else ⟨draw, true⟩ := by
  simp only [encoder, h, offsetFits_iff]

theorem encoder_J (h : formatOf opc = .J) : encoder draw (.instr opc) arg0 arg1 arg2 =
    ⟨packJ (bitsOfOpcode opc) (regField arg0) (regField arg1), false⟩ := by
  simp only [encoder, h]

theorem encoder_O (h : formatOf opc = .O) : encoder draw (.instr opc) arg0 arg1 arg2 =
    ⟨packO (bitsOfOpcode opc), false⟩ := by
  simp only [encoder, h]

theorem encoder_fill : encoder draw .fill arg0 arg1 arg2 =
    if -2147483648 ≤ arg0 ∧ arg0 ≤ 2147483647 then ⟨bits32 arg0, false⟩ else ⟨draw, true⟩ := by
  simp only [encoder, fillFits_iff]

/-- An instruction's encoding errs exactly where its format has an offset and `arg2` does not fit it (R72 to R76). -/
theorem encoder_err : (encoder draw (.instr opc) arg0 arg1 arg2).err = (formatOf opc == .I && !offsetFits arg2) := by
  cases h : formatOf opc with
  | R => rw [encoder_R _ _ _ _ h]; rfl
  | I => simp only [encoder, h]; cases offsetFits arg2 <;> rfl
  | J => rw [encoder_J _ _ _ _ h]; rfl
  | O => rw [encoder_O _ _ _ _ h]; rfl

end Outputs

/-- The encoder errs and emits the draw, whatever the draw, or emits a word of the inputs alone (R78, R79). -/
theorem encoder_draw_or_word (sel : EncoderSel) (arg0 arg1 arg2 : Int) :
    (∀ draw, encoder draw sel arg0 arg1 arg2 = ⟨draw, true⟩) ∨
    ∃ w, ∀ draw, encoder draw sel arg0 arg1 arg2 = ⟨w, false⟩ := by
  cases sel with
  | fill =>
    simp only [encoder_fill]
    split
    · exact .inr ⟨_, fun _ => rfl⟩
    · exact .inl fun _ => rfl
  | instr opc =>
    cases h : formatOf opc with
    | R => exact .inr ⟨_, fun draw => encoder_R draw _ _ _ h⟩
    | I =>
      simp only [encoder_I _ _ _ _ h]
      split
      · exact .inr ⟨_, fun _ => rfl⟩
      · exact .inl fun _ => rfl
    | J => exact .inr ⟨_, fun draw => encoder_J draw _ _ _ h⟩
    | O => exact .inr ⟨_, fun draw => encoder_O draw _ _ _ h⟩

/-- Settles O47: in either of its two cases the encoder's outputs say how the draw enters them. -/
theorem encoderWordIsFreeExactlyOnError : Obligations.EncoderWordIsFreeExactlyOnError := by
  unfold Obligations.EncoderWordIsFreeExactlyOnError
  intro sel arg0 arg1 arg2
  rcases encoder_draw_or_word sel arg0 arg1 arg2 with h | ⟨w, h⟩ <;> simp [h]

/-- Settles O46: a register operand enters the word through its field alone, and `err` not at all. -/
theorem registerOperandsAreMasked : Obligations.RegisterOperandsAreMasked := by
  unfold Obligations.RegisterOperandsAreMasked
  intro draw opc arg0 arg1 arg2
  refine ⟨?_, fun hR => ?_, fun a b => ?_⟩
  · simp only [encoder, regField_emod]
  · rw [encoder_R _ _ _ _ hR, encoder_R _ _ _ _ hR, regField_emod]
  · rw [encoder_err, encoder_err]

theorem eq_jalr_of_formatOf_eq_J {opc : Opcode} : formatOf opc = .J → opc = .jalr := by
  cases opc <;> decide

/-- Settles O45, format by format: each layout's value is the sum of its fields' values. -/
theorem encoderWordsInArithmeticForm : Obligations.EncoderWordsInArithmeticForm := by
  unfold Obligations.EncoderWordsInArithmeticForm
  refine ⟨rfl, fun draw opc arg0 arg1 arg2 => ⟨fun hR => ?_, fun hI h1 h2 => ?_, fun hI h => ?_, fun hJ => ?_,
    fun hO => ?_, fun h1 h2 => ?_, fun h => ?_⟩⟩
  · rw [encoder_R _ _ _ _ hR]
    simp [packR_toNat, regField_toNat]
  · rw [encoder_I _ _ _ _ hI, if_pos ⟨h1, h2⟩]
    simp [packI_toNat, regField_toNat, bits16_toNat]
  · rw [encoder_I _ _ _ _ hI, if_neg (by omega)]
  · have hopc := eq_jalr_of_formatOf_eq_J hJ
    rw [encoder_J _ _ _ _ hJ, hopc]
    simp [packJ_toNat, regField_toNat, bitsOfOpcode]
  · rw [encoder_O _ _ _ _ hO]
    exact ⟨rfl, packO_toNat _⟩
  · rw [encoder_fill, if_pos ⟨h1, h2⟩]
    exact ⟨rfl, bits32_toNat arg0⟩
  · rw [encoder_fill, if_neg (by omega)]

/-- Settles O48: the format's layout holds the fields of the registers `a`, `b` and `d`, and the decoder reads them back. -/
theorem encoderDecoderRoundTrip : Obligations.EncoderDecoderRoundTrip := by
  unfold Obligations.EncoderDecoderRoundTrip
  intro draw opc arg0 arg1 arg2 a b d ha hb hd herr
  have ea := regField_eq_bitsOfReg ha
  have eb := regField_eq_bitsOfReg hb
  have ed := regField_eq_bitsOfReg hd
  cases hf : formatOf opc with
  | R =>
    rw [encoder_R _ _ _ _ hf, ea, eb, ed]
    simp [decodeR, decoder_packR, hf]
  | I =>
    obtain ⟨hmin, hmax⟩ : -32768 ≤ arg2 ∧ arg2 ≤ 32767 := by
      rw [encoder_err, hf] at herr
      simpa [offsetFits_iff] using herr
    rw [encoder_I _ _ _ _ hf, if_pos ⟨hmin, hmax⟩, ea, eb]
    simp [decodeI, decoder_packI, hf, sext16_bits16 hmin hmax]
  | J =>
    rw [encoder_J _ _ _ _ hf, ea, eb]
    simp [decodeJ, packJ_eq_packI, decoder_packI, hf]
  | O =>
    rw [encoder_O _ _ _ _ hf]
    simp [decodeO, packO_eq_packI, decoder_packI, hf]

/-- The encoder's word of a `beq` whose offset fits is that of the instruction with the operands mod 8. -/
theorem encoder_beq (draw : Word) {a b : RegIx} {arg0 arg1 off : Int} (ha : (a.val : Int) = arg0 % 8)
    (hb : (b.val : Int) = arg1 % 8) (h1 : -32768 ≤ off) (h2 : off ≤ 32767) :
    encoder draw (.instr .beq) arg0 arg1 off = ⟨encode (.beq a b off), false⟩ := by
  rw [encoder_I _ _ _ _ rfl, if_pos ⟨h1, h2⟩, regField_eq_bitsOfReg ha, regField_eq_bitsOfReg hb]
  rfl

end Sys2Proof

/-! ## Labels (R93, R94, R132) -/

namespace Sys2Proof.Machine

/-- Settles O50: the label's distance is the encoder's third operand, and the decoder gives it back. -/
theorem branchToLabelReachesTheLabel : Obligations.BranchToLabelReachesTheLabel := by
  unfold Obligations.BranchToLabelReachesTheLabel
  intro draw table a k l r0 r1 hsel h0 h1 hlit hlabel hmin hmax
  obtain ⟨regA, ha⟩ := exists_reg_eq_emod r0
  obtain ⟨regB, hb⟩ := exists_reg_eq_emod r1
  have hres : Asm.resolve table a l = some (EncoderSel.instr .beq, r0, r1, (k : Int) - (a + 1)) := by
    simp [Asm.resolve, Asm.branchOperand, formatOf, hsel, h0, h1, hlit, hlabel]
  have hline : Asm.assembleLine draw table a l = ⟨encode (.beq regA regB (k - (a + 1))), false⟩ := by
    rw [Asm.assembleLine, hres]
    exact encoder_beq draw ha hb hmin hmax
  refine ⟨regA, regB, ha, hb, ?_, ?_, fun s hpc heq => ⟨_, rfl, ?_⟩⟩
  · rw [hline]
  · rw [hline]
    exact decode_encode ((offsetFits_iff _).2 ⟨hmin, hmax⟩)
  · simp only [State.setInstrCount_pc, State.setPc_pc, branchPc, regsEqual, heq, beq_self_eq_true, if_true, hpc]
    omega

/-- Settles O51: the label's address is the encoder's operand, and fits the word. -/
theorem fillOfLabelIsItsAddress : Obligations.FillOfLabelIsItsAddress := by
  unfold Obligations.FillOfLabelIsItsAddress
  intro draw table a k l hsel hlit hlabel hk
  have hres : Asm.resolve table a l = some (EncoderSel.fill, (k : Int), 0, 0) := by
    simp [Asm.resolve, Asm.fillOperand, hsel, hlit, hlabel]
  have hline : Asm.assembleLine draw table a l = ⟨bits32 k, false⟩ := by
    rw [Asm.assembleLine, hres]
    exact (encoder_fill draw k 0 0).trans (if_pos (by omega))
  rw [hline]
  exact ⟨rfl, wordToInt_bits32 (by omega) (by omega)⟩

end Sys2Proof.Machine

/-! ## The text the assembler writes (R34, R98, R191) -/

namespace Sys2Proof.Machine

/-- A written number spells itself: its first character is a digit and no sign. -/
theorem decimalValue_naturalLine {n : Nat} (h : n < 10 ^ 10) : decimalValue (naturalLine n) = some (n : Int) := by
  have hn := naturalValue_naturalLine h
  obtain ⟨d, cs, hd, e⟩ := digitsBefore_cons 10 n [] (by norm_num)
  obtain ⟨hminus, hplus⟩ := ofNat_digit_ne_sign hd
  change naturalLine n = _ at e
  rw [e] at hn ⊢
  rw [decimalValue, if_neg hminus, if_neg hplus, hn]
  rfl

/-- The line written for a word spells its signed reading (R98, R191). -/
theorem lineSpells_decimalLine (w : Word) : LineSpells (decimalLine w) (wordToInt w) := by
  have hle : -2147483648 ≤ wordToInt w := w.le_toInt
  have hlt : wordToInt w < 2147483648 := w.toInt_lt
  refine ⟨?_, hle, by omega⟩
  unfold decimalLine
  split
  · next hneg =>
    rw [decimalValue, if_pos rfl, naturalValue_naturalLine (by omega)]
    exact congrArg some (by omega : -((wordToInt w).natAbs : Int) = wordToInt w)
  · next hpos =>
    rw [decimalValue_naturalLine (by omega)]
    exact congrArg some (by omega)

theorem lineWord_decimalLine (w : Word) : lineWord (decimalLine w) = some w :=
  (lineWord_eq_some_iff _ _).2 ⟨_, lineSpells_decimalLine w, (bits32_wordToInt w).symm⟩

/-- Settles O38: each line has its word, so the loop writes the words from address 0, where the report finds them. -/
theorem assembledOutputLoadsVerbatim : Obligations.AssembledOutputLoadsVerbatim := by
  unfold Obligations.AssembledOutputLoadsVerbatim
  intro s ws hs hin hlen
  have hwords : List.Forall₂ (fun l w => lineWord l = some w) (ws.map decimalLine) ws :=
    List.forall₂_map_left_iff.2 (List.forall₂_same.2 fun w _ => lineWord_decimalLine w)
  have hload : loadLines s.input 0 [] = (Memory.storeFrom [] 0 ws, ws.length, none) := by
    have := loadLines_good [] 0 [] hwords (by simpa using hlen)
    simpa [hin, loadLines] using this
  refine ⟨_, (step_loading hs).trans (load_ok hload), rfl, rfl, ?_⟩
  refine List.ext_getElem (by simp [State.obs]) fun j _ hj => ?_
  have hlook := Memory.lookup_storeFrom [] 0 ws j hj
  rw [Nat.zero_add] at hlook
  simp [State.obs, wordAt, hlook]

end Sys2Proof.Machine

/-! PROOFS of the statements about the cycle (spec 40_cycle.md): what a step of a running core leads to, the count and the
reports, how a run ends, and the core's decoding of the encoder's words. -/

/-! ## One step of a running core (R100 to R105) -/

namespace Sys2Proof.Machine

/-- `lw` and `sw` with an address outside the memory fault, and do nothing else (R130, R131, R174). -/
theorem exec_eq_raise_of_outside {i : Instr} {s : State} {regA regB : RegIx} {offset : Int}
    (hi : i = .lw regA regB offset ∨ i = .sw regA regB offset)
    (out : ¬ (0 ≤ effectiveAddress s regA offset ∧ effectiveAddress s regA offset ≤ 65535)) :
    exec i s = raise (.memoryAddressFault s.pc (effectiveAddress s regA offset)) s := by
  rcases hi with rfl | rfl
  · rw [exec_lw_eq, if_neg out]
  · rw [exec_sw_eq, if_neg out]

/-- The states a step of a running core can lead to from `s`, each with the condition the table of R100 puts on it. -/
inductive StepEnds (s : State) : State → Prop
  | fetchFault (c : FaultCause) (fetched : fetchInstr s = .error c) : StepEnds s (s.setPhase (.faulted c))
  | dataFault (regA regB : RegIx) (offset : Int)
      (fetched : fetchInstr s = .ok (.lw regA regB offset) ∨ fetchInstr s = .ok (.sw regA regB offset))
      (out : ¬ (0 ≤ effectiveAddress s regA offset ∧ effectiveAddress s regA offset ≤ 65535)) :
      StepEnds s (s.setPhase (.faulted (.memoryAddressFault s.pc (effectiveAddress s regA offset))))
  | halt (fetched : fetchInstr s = .ok .halt) : StepEnds s ((s.setInstrCount (s.instrCount + 1)).setPhase .halted)
  | retire (i : Instr) (t : State) (fetched : fetchInstr s = .ok i) (notHalt : i ≠ .halt)
      (inside : ∀ regA regB offset, i = .lw regA regB offset ∨ i = .sw regA regB offset →
        0 ≤ effectiveAddress s regA offset ∧ effectiveAddress s regA offset ≤ 65535)
      (retired : Retired s t) : StepEnds s t

theorem stepEnds_of_exec {i : Instr} {s t : State} (hf : fetchInstr s = .ok i) (h : exec i s = .next t) : StepEnds s t := by
  by_cases hout : ∃ regA regB offset, (i = .lw regA regB offset ∨ i = .sw regA regB offset) ∧
      ¬ (0 ≤ effectiveAddress s regA offset ∧ effectiveAddress s regA offset ≤ 65535)
  · obtain ⟨regA, regB, offset, hi, out⟩ := hout
    rw [exec_eq_raise_of_outside hi out] at h
    cases h
    exact .dataFault regA regB offset (hi.imp (hf.trans <| congrArg _ ·) (hf.trans <| congrArg _ ·)) out
  have inside : ∀ regA regB offset, i = .lw regA regB offset ∨ i = .sw regA regB offset →
      0 ≤ effectiveAddress s regA offset ∧ effectiveAddress s regA offset ≤ 65535 :=
    fun regA regB offset hi => by_contra fun out => hout ⟨regA, regB, offset, hi, out⟩
  rcases exec_cases i s with ⟨regA, regB, offset, hi, out, _⟩ | ⟨rfl, e⟩ | ⟨ne, _, _, _, _, e⟩ | ⟨ne, _, _, e⟩ |
      ⟨_, _, _, rfl, _, e⟩
  · exact absurd ⟨regA, regB, offset, hi, out⟩ hout
  all_goals rw [e] at h; cases h
  · exact .halt hf
  · exact .retire i _ hf ne inside ⟨rfl, rfl, rfl, rfl, rfl, rfl⟩
  · exact .retire i _ hf ne inside ⟨rfl, rfl, rfl, rfl, rfl, rfl⟩
  · exact .retire _ _ hf nofun inside ⟨rfl, rfl, rfl, rfl, rfl, rfl⟩

/-- Everything a step of a running core can lead to (R100). -/
theorem stepEnds_of_step {s t : State} (hs : s.phase = .running) (h : step s = .next t) : StepEnds s t := by
  rcases step_running_next hs h with ⟨c, hf, rfl⟩ | ⟨i, hf, _, _, he⟩
  · exact .fetchFault c hf
  · exact stepEnds_of_exec hf he

/-- A running core has a next state (R108). -/
theorem exists_step_of_running {s : State} (hs : s.phase = .running) : ∃ t, step s = .next t := by
  rcases step_running hs with ⟨_, e⟩ | ⟨_, _, e⟩ | ⟨_, i, _, _, e⟩
  · exact ⟨_, e⟩
  · exact ⟨_, e⟩
  · rw [e]
    exact exec_next i s

/-- The load leads to Running where the input can be loaded, and to a load fault elsewhere (R100, R190 to R192). -/
theorem load_next (s : State) : ∃ t, load s = .next t ∧
    ((t.phase = .running ∧ (∃ vs, List.Forall₂ LineSpells s.input vs) ∧ s.input.length ≤ 65536) ∨
      (¬ ((∃ vs, List.Forall₂ LineSpells s.input vs) ∧ s.input.length ≤ 65536) ∧
        ∃ n, t.phase = .faulted (.loadOverflow n) ∨ t.phase = .faulted (.loadValueRange n))) := by
  obtain ⟨m, n, c, e, -, -, -, hc⟩ := loadLines_cases s.input 0 [] (Nat.zero_le _) Memory.wf_nil
  have hloadable := loadLines_none_iff s.input 0 [] (Nat.zero_le _)
  rw [e, Nat.zero_add] at hloadable
  rcases hc with rfl | rfl | ⟨rfl, -⟩
  · exact ⟨_, load_ok e, .inl ⟨rfl, hloadable.1 rfl⟩⟩
  · exact ⟨_, load_fault e, .inr ⟨mt hloadable.2 nofun, _, .inl rfl⟩⟩
  · exact ⟨_, load_fault e, .inr ⟨mt hloadable.2 nofun, _, .inr rfl⟩⟩

/-- Settles O17: out of Loading by what the load does, out of Running by what a step can lead to, and out of the terminal
phases not at all. -/
theorem phaseMovesAlongTransitions : Obligations.PhaseMovesAlongTransitions := by
  unfold Obligations.PhaseMovesAlongTransitions
  refine fun s => ⟨fun t h => ?_, ?_, step_halted, fun c => step_faulted⟩
  · cases hp : s.phase with
    | loading =>
      obtain ⟨u, hu, hends⟩ := load_next s
      rw [step_loading hp, hu] at h
      cases h
      rcases hends with hrun | hfault
      · exact .inl ⟨rfl, hrun⟩
      · exact .inr (.inl ⟨rfl, hfault⟩)
    | running =>
      cases stepEnds_of_step hp h with
      | retire i _ hf ne inside retired => exact .inr (.inr (.inl ⟨rfl, retired.1.trans hp, i, hf, ne, inside⟩))
      | halt hf => exact .inr (.inr (.inr (.inl ⟨rfl, rfl, hf⟩)))
      | fetchFault c hf => exact .inr (.inr (.inr (.inr (.inl ⟨rfl, c, rfl, hf⟩))))
      | dataFault regA regB offset hf out =>
        exact .inr (.inr (.inr (.inr (.inr ⟨rfl, regA, regB, offset, hf, out, rfl⟩))))
    | halted => rw [step_halted hp] at h; cases h
    | faulted c => rw [step_faulted hp] at h; cases h
  · rintro (hp | hp)
    · obtain ⟨t, ht, -⟩ := load_next s
      exact ⟨t, (step_loading hp).trans ht⟩
    · exact exists_step_of_running hp

/-- Settles O18: a fault changes the phase alone, and everything else a step can lead to has the count one higher. -/
theorem countRisesExactlyOnCompletion : Obligations.CountRisesExactlyOnCompletion := by
  unfold Obligations.CountRisesExactlyOnCompletion
  intro s t hs h
  cases stepEnds_of_step hs h with
  | fetchFault | dataFault => exact ⟨fun hok => absurd rfl (hok _), fun _ _ => rfl⟩
  | halt => exact ⟨fun _ => rfl, nofun⟩
  | retire _ _ _ _ _ retired =>
    obtain ⟨hphase, hcount, -⟩ := retired
    exact ⟨fun _ => hcount, fun c hc => by rw [hphase, hs] at hc; cases hc⟩

/-- Settles O26: only a fetched `halt` leads to Halted, and it changes the phase and the count alone. -/
theorem haltedReportRepeatsTheLast : Obligations.HaltedReportRepeatsTheLast := by
  unfold Obligations.HaltedReportRepeatsTheLast
  intro s t hs h ht
  refine ⟨by simp only [State.report, hs], ?_⟩
  cases stepEnds_of_step hs h with
  | fetchFault | dataFault => cases ht
  | halt => rfl
  | retire _ _ _ _ _ retired => rw [retired.1, hs] at ht; cases ht

/-- Settles O12: the fetch of a `pc` inside the memory answers the word there. -/
theorem stepRunsDecodedInstruction : Obligations.StepRunsDecodedInstruction := by
  unfold Obligations.StepRunsDecodedInstruction
  intro s i hs hmin hmax hd
  exact step_of_fetch_of_decode_eq_ok hs ((fetch_eq s).trans (if_pos ⟨hmin, hmax⟩)) hd

end Sys2Proof.Machine

/-! ## How a run ends (R100, R108, R132) -/

namespace Sys2Proof.Machine

theorem step_ne_next_of_terminal {s : State} (hs : s.phase.terminal = true) (t : State) : step s ≠ .next t := by
  cases hp : s.phase with
  | loading | running => rw [hp] at hs; cases hs
  | halted => rw [step_halted hp]; exact nofun
  | faulted c => rw [step_faulted hp]; exact nofun

theorem Reaches.unique {k : Nat} {s t u : State} (ht : Reaches s k t) (hu : Reaches s k u) : t = u := by
  rw [Reaches, ht] at hu
  cases hu
  rfl

/-- No run is longer than one that ends in a terminal phase. -/
theorem Reaches.le_of_terminal {j k : Nat} {s t u : State} (ht : Reaches s j t) (hterm : t.phase.terminal = true)
    (hu : Reaches s k u) : k ≤ j := by
  induction j generalizing s k with
  | zero =>
    rw [reaches_zero] at ht
    subst ht
    cases k with
    | zero => exact Nat.le_refl 0
    | succ k =>
      obtain ⟨v, hv, -⟩ := (reaches_succ s u k).1 hu
      exact absurd hv (step_ne_next_of_terminal hterm v)
  | succ j ih =>
    cases k with
    | zero => exact Nat.zero_le _
    | succ k =>
      obtain ⟨v, hv, hvt⟩ := (reaches_succ s t j).1 ht
      obtain ⟨v', hv', hvu⟩ := (reaches_succ s u k).1 hu
      rw [hv] at hv'
      cases hv'
      exact Nat.succ_le_succ (ih hvt hvu)

/-- A run reaches one terminal state only. -/
theorem Reaches.terminal_unique {j k : Nat} {s t u : State} (ht : Reaches s j t) (htt : t.phase.terminal = true)
    (hu : Reaches s k u) (hut : u.phase.terminal = true) : t = u := by
  obtain rfl : j = k := Nat.le_antisymm (hu.le_of_terminal hut ht) (ht.le_of_terminal htt hu)
  exact ht.unique hu

theorem not_neverEnds_of_terminal {k : Nat} {s t : State} (ht : Reaches s k t) (hterm : t.phase.terminal = true) :
    ¬ NeverEnds s := by
  intro hnever
  obtain ⟨u, hu, -⟩ := hnever (k + 1)
  exact absurd (ht.le_of_terminal hterm hu) (Nat.not_succ_le_self k)

theorem not_endsFaulted_of_endsNormally {s : State} (hn : EndsNormally s) : ¬ EndsFaulted s := by
  rintro ⟨k, u, c, hu, huc⟩
  obtain ⟨j, t, ht, hth⟩ := hn
  obtain rfl := ht.terminal_unique (by rw [hth]; rfl) hu (by rw [huc]; rfl)
  rw [hth] at huc
  cases huc

/-- After `k` steps a running core runs on, unless it has halted or faulted. -/
theorem running_or_ended (k : Nat) {s : State} (hs : s.phase = .running) :
    (∃ t, Reaches s k t ∧ t.phase = .running) ∨ EndsNormally s ∨ EndsFaulted s := by
  induction k generalizing s with
  | zero => exact .inl ⟨s, (reaches_zero s s).2 rfl, hs⟩
  | succ k ih =>
    obtain ⟨u, hu⟩ := exists_step_of_running hs
    have cons {j : Nat} {t : State} (ht : Reaches u j t) : Reaches s (j + 1) t := (reaches_succ s t j).2 ⟨u, hu, ht⟩
    have first : Reaches s 1 u := cons ((reaches_zero u u).2 rfl)
    cases hp : u.phase with
    | loading => exact absurd hp (phase_of_step_of_ne_loading (by simp [hs]) hu).2
    | running =>
      rcases ih hp with ⟨t, ht, hrun⟩ | ⟨j, t, ht, hhalt⟩ | ⟨j, t, c, ht, hfault⟩
      · exact .inl ⟨t, cons ht, hrun⟩
      · exact .inr (.inl ⟨j + 1, t, cons ht, hhalt⟩)
      · exact .inr (.inr ⟨j + 1, t, c, cons ht, hfault⟩)
    | halted => exact .inr (.inl ⟨1, u, first, hp⟩)
    | faulted c => exact .inr (.inr ⟨1, u, c, first, hp⟩)

theorem ends_or_neverEnds {s : State} (hs : s.phase = .running) : EndsNormally s ∨ EndsFaulted s ∨ NeverEnds s := by
  by_cases hends : EndsNormally s ∨ EndsFaulted s
  · exact hends.imp_right .inl
  · exact .inr (.inr fun k => (running_or_ended k hs).resolve_right hends)

/-- A `beq` of a register with itself to its own address changes nothing but the count (R132). -/
theorem step_selfBranch {s : State} {r : RegIx} (hs : s.phase = .running) (hf : fetchInstr s = .ok (.beq r r (-1))) :
    step s = .next (s.setInstrCount (s.instrCount + 1)) := by
  have hpc : branchPc s (regsEqual s r r) (-1) + 1 = s.pc := by simp [branchPc, regsEqual]
  rw [step_eq_exec_of_fetchInstr hs hf, exec, execBeq, retire_eq, State.setPc_pc, hpc]
  rfl

/-- `k` steps of a branch to itself only count. -/
theorem reaches_selfBranch {s : State} {r : RegIx} (hs : s.phase = .running) (hf : fetchInstr s = .ok (.beq r r (-1)))
    (k : Nat) : Reaches s k (s.setInstrCount (s.instrCount + k)) := by
  induction k generalizing s with
  | zero => exact (reaches_zero _ _).2 rfl
  | succ k ih =>
    refine (reaches_succ _ _ _).2 ⟨_, step_selfBranch hs hf, ?_⟩
    rw [Nat.add_comm k, ← Nat.add_assoc]
    exact ih (s := s.setInstrCount (s.instrCount + 1)) hs hf

/-- Settles O30: a run that has not ended by any number of steps never ends, and a terminal state, which is the run's only
one, is its last. -/
theorem runsEndInExactlyOneWay : Obligations.RunsEndInExactlyOneWay := by
  unfold Obligations.RunsEndInExactlyOneWay
  refine fun s hs => ⟨?_, fun r hf k => ⟨_, reaches_selfBranch hs hf k, hs⟩⟩
  have hhalted : EndsNormally s → ¬ NeverEnds s := fun ⟨_, _, ht, hp⟩ =>
    not_neverEnds_of_terminal ht (by rw [hp]; rfl)
  have hfaulted : EndsFaulted s → ¬ NeverEnds s := fun ⟨_, _, _, ht, hp⟩ =>
    not_neverEnds_of_terminal ht (by rw [hp]; rfl)
  rcases ends_or_neverEnds hs with h | h | h
  · exact .inl ⟨h, not_endsFaulted_of_endsNormally h, hhalted h⟩
  · exact .inr (.inl ⟨fun hn => not_endsFaulted_of_endsNormally hn h, h, hfaulted h⟩)
  · exact .inr (.inr ⟨fun hn => hhalted hn h, fun hf => hfaulted hf h, h⟩)

end Sys2Proof.Machine

/-! ## The reports and the count along a run (R104, R105, R175) -/

namespace Sys2Proof.Machine

/-- The instructions begun: those counted, and the one that faulted. -/
def State.begun (s : State) : Nat :=
  match s.phase with
  | .faulted _ => s.instrCount + 1
  | _ => s.instrCount

theorem State.begun_of_faulted {s : State} {c : FaultCause} (h : s.phase = .faulted c) : s.begun = s.instrCount + 1 := by
  simp only [State.begun, h]

theorem State.begun_of_not_faulted {s : State} (h : ∀ c, s.phase ≠ .faulted c) : s.begun = s.instrCount := by
  unfold State.begun
  split
  · next c hc => exact absurd hc (h c)
  · rfl

/-- Each step of a running core begins one instruction (R104). -/
theorem begun_of_step {s t : State} (hs : s.phase = .running) (h : step s = .next t) : t.begun = s.begun + 1 := by
  obtain ⟨hcompletes, hfaults⟩ := countRisesExactlyOnCompletion s t hs h
  rw [State.begun_of_not_faulted (s := s) (by simp [hs])]
  by_cases hc : ∃ c, t.phase = .faulted c
  · obtain ⟨c, hc⟩ := hc
    rw [State.begun_of_faulted hc, hfaults c hc]
  · have hok := not_exists.1 hc
    rw [State.begun_of_not_faulted hok, hcompletes hok]

/-- A run of `k` steps after the load begins `k` instructions. -/
theorem begun_of_reaches {k : Nat} {s t : State} (hs : s.phase ≠ .loading) (h : Reaches s k t) :
    t.begun = s.begun + k := by
  induction k generalizing s with
  | zero =>
    rw [reaches_zero] at h
    rw [h, Nat.add_zero]
  | succ k ih =>
    obtain ⟨u, hu, ht⟩ := (reaches_succ s t k).1 h
    obtain ⟨hrun, hu'⟩ := phase_of_step_of_ne_loading hs hu
    rw [ih hu' ht, begun_of_step hrun hu]
    omega

/-- A run of `k` steps after the load is reported `k` times without the indication, and then as its last state is (R105). -/
theorem reports_of_reaches {k : Nat} {s t : State} (hs : s.phase ≠ .loading) (h : Reaches s k t) :
    ∃ before : List Report, s.reports k = before ++ t.report.toList ∧ before.length = k ∧
      ∀ r ∈ before, r.machineHalted = false := by
  induction k generalizing s with
  | zero =>
    rw [reaches_zero] at h
    subst h
    exact ⟨[], rfl, rfl, nofun⟩
  | succ k ih =>
    obtain ⟨u, hu, ht⟩ := (reaches_succ s t k).1 h
    obtain ⟨hrun, hu'⟩ := phase_of_step_of_ne_loading hs hu
    obtain ⟨before, hreports, hlen, hfalse⟩ := ih hu' ht
    have hreport : s.report = some ⟨s.obs, false⟩ := by simp only [State.report, hrun]
    refine ⟨⟨s.obs, false⟩ :: before, ?_, congrArg Nat.succ hlen, List.forall_mem_cons.2 ⟨rfl, hfalse⟩⟩
    simp only [State.reports, hu, hreport, hreports, Option.toList_some, List.cons_append, List.nil_append]

/-- Settles O32: the reports before the run's last state number `k`, the Halted state adds one and a Faulted state none;
the instructions begun number `k`, and all but one that faulted are counted. -/
theorem runsAreReportedBeforeEachFetch : Obligations.RunsAreReportedBeforeEachFetch := by
  unfold Obligations.RunsAreReportedBeforeEachFetch
  intro k s t hs h
  have hload : s.phase ≠ .loading := by simp [hs]
  obtain ⟨before, hreports, hlen, hfalse⟩ := reports_of_reaches hload h
  have hbegun := begun_of_reaches hload h
  rw [State.begun_of_not_faulted (s := s) (by simp [hs])] at hbegun
  refine ⟨fun ht => ?_, fun c ht => ?_⟩
  · have hreport : t.report = some ⟨t.obs, true⟩ := by simp only [State.report, ht]
    rw [State.begun_of_not_faulted (by simp [ht])] at hbegun
    rw [hreports, hreport]
    exact ⟨by simp [hlen], by simp, by simpa using hfalse, hbegun⟩
  · have hreport : t.report = none := by simp only [State.report, ht]
    rw [State.begun_of_faulted ht] at hbegun
    rw [hreports, hreport, Option.toList_none, List.append_nil]
    exact ⟨hlen, hfalse, hbegun⟩

end Sys2Proof.Machine

/-! ## The core's decoding of the encoder's words (R63, R87, R102) -/

namespace Sys2Proof

/-- The instruction an opcode names, with those of the operands that its format has (R63 to R67). -/
def Opcode.instr (opc : Opcode) (a b d : RegIx) (offset : Int) : Instr :=
  match opc with
  | .add => .add a b d
  | .nor => .nor a b d
  | .lw => .lw a b offset
  | .sw => .sw a b offset
  | .beq => .beq a b offset
  | .jalr => .jalr a b
  | .halt => .halt
  | .noop => .noop

theorem Opcode.wf_instr {opc : Opcode} (a b d : RegIx) {offset : Int}
    (h : formatOf opc = .I → -32768 ≤ offset ∧ offset ≤ 32767) : (opc.instr a b d offset).wf = true := by
  cases opc with
  | add | nor | jalr | halt | noop => rfl
  | lw | sw | beq => exact (offsetFits_iff offset).2 (h rfl)

/-- The encoder's word, where it does not err, is that of the instruction its opcode names (R71 to R76). -/
theorem encoder_eq_encode (draw : Word) {opc : Opcode} {arg0 arg1 arg2 : Int} {a b d : RegIx}
    (ha : (a.val : Int) = arg0 % 8) (hb : (b.val : Int) = arg1 % 8) (hd : (d.val : Int) = arg2 % 8)
    (hoff : formatOf opc = .I → -32768 ≤ arg2 ∧ arg2 ≤ 32767) :
    encoder draw (.instr opc) arg0 arg1 arg2 = ⟨encode (opc.instr a b d arg2), false⟩ := by
  have ea := regField_eq_bitsOfReg ha
  have eb := regField_eq_bitsOfReg hb
  have ed := regField_eq_bitsOfReg hd
  cases opc with
  | add | nor => rw [encoder_R _ _ _ _ rfl, ea, eb, ed]; rfl
  | lw | sw | beq => rw [encoder_I _ _ _ _ rfl, if_pos (hoff rfl), ea, eb]; rfl
  | jalr => rw [encoder_J _ _ _ _ rfl, ea, eb]; rfl
  | halt | noop => rw [encoder_O _ _ _ _ rfl]; rfl

/-- Settles O49: the encoder's word is the word of the instruction its opcode names, which decodes to it. -/
theorem encodedWordDecodesToItsInstruction : Obligations.EncodedWordDecodesToItsInstruction := by
  unfold Obligations.EncodedWordDecodesToItsInstruction
  intro draw arg0 arg1 arg2 a b d ha hb hd
  have decoded (opc : Opcode) (hoff : formatOf opc = .I → -32768 ≤ arg2 ∧ arg2 ≤ 32767) :
      decode (encoder draw (.instr opc) arg0 arg1 arg2).word = .ok (opc.instr a b d arg2) := by
    rw [encoder_eq_encode draw ha hb hd hoff]
    exact decode_encode (Opcode.wf_instr a b d hoff)
  exact ⟨decoded .add nofun, decoded .nor nofun,
    fun hmin hmax =>
      ⟨decoded .lw fun _ => ⟨hmin, hmax⟩, decoded .sw fun _ => ⟨hmin, hmax⟩, decoded .beq fun _ => ⟨hmin, hmax⟩⟩,
    decoded .jalr nofun, decoded .halt nofun, decoded .noop nofun⟩

end Sys2Proof

/-! PROOFS of the statements about the R-type instructions (spec 41_r_type.md): the word of each opcode number, the state
that a completed register write leaves, and the two results. -/

/-! ## The instruction an opcode number names (R63, R102) -/

namespace Sys2Proof

theorem instrOf_eq_instr (d : DecoderOut) :
    instrOf d = (opcodeOfBits d.opcode).instr d.regA d.regB d.destReg d.offset := by
  unfold instrOf
  cases opcodeOfBits d.opcode <;> rfl

/-- A word whose bits 31:22 are the number of an opcode decodes to that opcode's instruction, with the word's fields. -/
theorem decode_of_opcode_number {w : Word} {opc : Opcode} (h : w.toNat / 2 ^ 22 = (bitsOfOpcode opc).toNat) :
    decode w = .ok (opc.instr (regOfBits (w.extractLsb' 19 3)) (regOfBits (w.extractLsb' 16 3))
      (regOfBits (w.extractLsb' 0 3)) (sext16 (w.extractLsb' 0 16))) := by
  have hbits := (bitsOfOpcode opc).isLt
  have hupper : w.toNat < 2 ^ 25 := by omega
  have hopc : (decoder w).opcode = bitsOfOpcode opc := field_eq (by omega)
  rw [decode_eq, if_pos hupper, instrOf_eq_instr, hopc, opcodeOfBits_bitsOfOpcode]
  rfl

end Sys2Proof

/-! ## The results of `add` and `nor` (R103, R104, R120, R121) -/

namespace Sys2Proof.Machine

/-- An instruction that completes with one register written leaves everything else but `pc` and the count. -/
theorem retire_writeReg (s : State) (d : RegIx) (v : Word) : ∃ t, retire (writeReg s d v) = .next t ∧
    readReg t d = v ∧ KeepsRegsBut d s t ∧ KeepsMem s t ∧ t.pc = s.pc + 1 ∧ Retired s t :=
  ⟨_, retire_eq _, readReg_writeReg_self s d v, fun _ hr => readReg_writeReg_other s v hr, fun _ => rfl, rfl, rfl, rfl,
    keepsFixed_refl s⟩

/-- The low 32 bits of the integer sum are the sum of the words (R120). -/
theorem bits32_wordToInt_add (v w : Word) : bits32 (wordToInt v + wordToInt w) = v + w := by
  have hadd : bits32 (wordToInt v + wordToInt w) = bits32 (wordToInt v) + bits32 (wordToInt w) := BitVec.ofInt_add _ _
  rw [hadd, bits32_wordToInt, bits32_wordToInt]

theorem exec_add_eq (regA regB destReg : RegIx) (s : State) :
    exec (.add regA regB destReg) s = retire (writeReg s destReg (readReg s regA + readReg s regB)) := by
  rw [exec, execAdd, bits32_wordToInt_add]

/-- Settles O1: the register written is the sum of the two words, whose value in each reading is the wrapped sum. -/
theorem addWritesWrappedSum : Obligations.AddWritesWrappedSum := by
  unfold Obligations.AddWritesWrappedSum
  refine ⟨fun w hw => decode_of_opcode_number (opc := .add) hw, fun regA regB destReg s => ?_⟩
  obtain ⟨t, ht, hsum, hframe⟩ := retire_writeReg s destReg (readReg s regA + readReg s regB)
  refine ⟨t, (exec_add_eq regA regB destReg s).trans ht, ?_, ?_, hframe⟩
  · rw [hsum, BitVec.toNat_add]
  · rw [hsum, BitVec.toInt_add]

/-- Settles O2: the register written is the complement of the two words' disjunction, bit by bit. -/
theorem norWritesBitwiseNor : Obligations.NorWritesBitwiseNor := by
  unfold Obligations.NorWritesBitwiseNor
  refine ⟨fun w hw => decode_of_opcode_number (opc := .nor) hw, fun regA regB destReg s => ?_⟩
  obtain ⟨t, ht, hnor, hframe⟩ := retire_writeReg s destReg (~~~(readReg s regA ||| readReg s regB))
  refine ⟨t, ht, fun i hi => ?_, hframe⟩
  simp [hnor, hi]

end Sys2Proof.Machine

/-! PROOFS of the statements about the I-type instructions (spec 42_i_type.md): the exact effective address, what a load, a
store and a branch leave, and what no report shows. -/

/-! ## The effective address (R133) -/

namespace Sys2Proof

/-- An integer from `[-2^32 + 65536, 2^32)`, as every effective address of a field's offset is, lies in the memory exactly
where its 32-bit pattern does (R133). -/
theorem bits32_toNat_le_iff {i : Int} (hmin : -4294901760 ≤ i) (hmax : i < 4294967296) :
    (bits32 i).toNat ≤ 65535 ↔ 0 ≤ i ∧ i ≤ 65535 := by
  have hmod := bits32_toNat i
  omega

end Sys2Proof

namespace Sys2Proof.Machine

/-- The sum of a signed word and an offset that fits its field stays within 32768 of the word's range (R11, R15, R133). -/
theorem effectiveAddress_bounds (s : State) (regA : RegIx) {offset : Int} (hmin : -32768 ≤ offset) (hmax : offset ≤ 32767) :
    -2147516416 ≤ effectiveAddress s regA offset ∧ effectiveAddress s regA offset ≤ 2147516414 := by
  have hle := (readReg s regA).le_toInt
  have hlt := (readReg s regA).toInt_lt
  simp only [effectiveAddress, wordToInt]
  omega

/-- `lw` changes no register but `regB`, whether it completes or faults (R130). -/
theorem keepsRegsBut_of_exec_lw {regA regB : RegIx} {offset : Int} {s t : State}
    (h : exec (.lw regA regB offset) s = .next t) : KeepsRegsBut regB s t := by
  rw [exec_lw_eq] at h
  split at h <;> cases h
  · exact fun r hr => readReg_writeReg_other s _ hr
  · exact fun _ _ => rfl

/-- `sw` changes no register, whether it completes or faults (R131). -/
theorem keepsRegs_of_exec_sw {regA regB : RegIx} {offset : Int} {s t : State}
    (h : exec (.sw regA regB offset) s = .next t) : KeepsRegs s t := by
  rw [exec_sw_eq] at h
  split at h <;> cases h <;> exact fun _ => rfl

/-- Settles O9: the sum is within 2^31 + 32768 of 0, too near for its pattern to wrap into the memory. -/
theorem effectiveAddressIsExactSum : Obligations.EffectiveAddressIsExactSum := by
  unfold Obligations.EffectiveAddressIsExactSum
  intro s regA offset hmin hmax
  obtain ⟨hlow, hhigh⟩ := effectiveAddress_bounds s regA hmin hmax
  refine ⟨rfl, (bits32_toNat_le_iff (by omega) (by omega)).symm, fun h0 h1 => ?_, fun regB t h hne => ?_, fun regB t h => ?_⟩
  · exact wordToInt_bits32 (by omega) (by omega)
  · exact keepsRegsBut_of_exec_lw h regA hne.symm
  · exact keepsRegs_of_exec_sw h regA

end Sys2Proof.Machine

/-! ## What a store shows in the reports (R28, R105, R131) -/

namespace Sys2Proof.Machine

/-- A store that completes changes the one word it writes and nothing else but `pc` and the count (R131). -/
theorem exec_sw_of_inside {s : State} {regA : RegIx} {offset : Int} (regB : RegIx)
    (inside : 0 ≤ effectiveAddress s regA offset ∧ effectiveAddress s regA offset ≤ 65535) :
    ∃ t, exec (.sw regA regB offset) s = .next t ∧ wordAt t (effectiveAddress s regA offset).toNat = readReg s regB ∧
      KeepsMemBut (effectiveAddress s regA offset) s t ∧ KeepsRegs s t ∧ t.pc = s.pc + 1 ∧ Retired s t := by
  refine ⟨_, (exec_sw_eq regA regB offset s).trans (if_pos inside), ?_, fun a ha => ?_, fun _ => rfl, rfl, rfl, rfl,
    keepsFixed_refl s⟩
  · exact (wordAt_setMem_store s _ _ _).trans (if_pos rfl)
  · exact (wordAt_setMem_store s _ a _).trans (if_neg (by omega))

theorem length_obs_words (s : State) : s.obs.words.length = s.loadedCount := by simp [State.obs]

theorem getElem_obs_words (s : State) (j : Nat) (h : j < s.obs.words.length) : s.obs.words[j] = wordAt s j := by
  simp [State.obs]

/-- The reported words are the same where the loaded count and every word below it are (R105). -/
theorem obs_words_congr {s t : State} (hcount : t.loadedCount = s.loadedCount)
    (hword : ∀ j < s.loadedCount, wordAt t j = wordAt s j) : t.obs.words = s.obs.words := by
  refine List.ext_getElem (by rw [length_obs_words, length_obs_words, hcount]) fun j _ hj => ?_
  rw [getElem_obs_words, getElem_obs_words, hword j (length_obs_words s ▸ hj)]

/-- Settles O27: the address stored to is none of those below the loaded count, which stays. -/
theorem storesAboveImageAreUnreported : Obligations.StoresAboveImageAreUnreported := by
  unfold Obligations.StoresAboveImageAreUnreported
  intro s regA regB offset habove hmax
  obtain ⟨t, ht, -, hmem, -, -, -, -, hcount, -⟩ := exec_sw_of_inside regB ⟨by omega, hmax⟩
  have hwords : t.obs.words = s.obs.words := obs_words_congr hcount fun j hj => hmem j (by omega)
  refine ⟨t, ht, hwords, by rw [hwords, length_obs_words], ?_⟩
  rw [hwords]
  exact getElem_obs_words s

end Sys2Proof.Machine

/-! ## The three instructions (R103, R104, R130, R131, R132) -/

namespace Sys2Proof.Machine

/-- Settles O31, by what `k` steps of a branch to itself lead to. -/
theorem branchToItselfOnlyCounts : Obligations.BranchToItselfOnlyCounts := by
  unfold Obligations.BranchToItselfOnlyCounts
  exact fun s r hs hf k => reaches_selfBranch hs hf k

/-- Settles O3: a load from inside the memory completes with one register written, and from outside it faults. -/
theorem lwLoadsWordOrFaults : Obligations.LwLoadsWordOrFaults := by
  unfold Obligations.LwLoadsWordOrFaults
  refine ⟨fun w hw => decode_of_opcode_number (opc := .lw) hw, fun regA regB offset s => ⟨fun inside => ?_, fun out => ?_⟩⟩
  · rw [exec_lw_eq, if_pos inside]
    exact retire_writeReg s regB _
  · exact exec_eq_raise_of_outside (.inl rfl) out

/-- Settles O4: a store inside the memory completes with one word written, and outside it faults. -/
theorem swStoresWordOrFaults : Obligations.SwStoresWordOrFaults := by
  unfold Obligations.SwStoresWordOrFaults
  exact ⟨fun w hw => decode_of_opcode_number (opc := .sw) hw, fun regA regB offset s =>
    ⟨exec_sw_of_inside regB, exec_eq_raise_of_outside (.inr rfl)⟩⟩

/-- The step's increment on top of `beq`'s own change of `pc` gives the branch target or the next address (R132). -/
theorem branchPc_add_one (s : State) (regA regB : RegIx) (offset : Int) :
    branchPc s (regsEqual s regA regB) offset + 1 =
      if (readReg s regA).toNat = (readReg s regB).toNat then s.pc + 1 + offset else s.pc + 1 := by
  simp only [branchPc, regsEqual, beq_iff_eq, BitVec.toNat_inj]
  split <;> omega

/-- Settles O5: `beq` retires from a state that differs in `pc` alone. -/
theorem beqBranchesOnEqualPatterns : Obligations.BeqBranchesOnEqualPatterns := by
  unfold Obligations.BeqBranchesOnEqualPatterns
  exact ⟨fun w hw => decode_of_opcode_number (opc := .beq) hw, fun regA regB offset s =>
    ⟨_, rfl, branchPc_add_one s regA regB offset, fun _ => rfl, fun _ => rfl, rfl, rfl, keepsFixed_refl s⟩⟩

end Sys2Proof.Machine

/-! PROOFS of the statement about the J-type instruction (spec 43_j_type.md): the link, and the next `pc` under both
readings of `jalr`. -/

namespace Sys2Proof.Machine

/-- The word whose signed value `jalr` goes on to: under `sequential` the link it has just written, under `old_regB` what
`regB` held before (R150). -/
def jalrTarget (s : State) (regB : RegIx) : Word :=
  match s.jalrReading with
  | .sequential => linkWord s
  | .oldRegB => readReg s regB

theorem jalrTarget_of_sequential {s : State} (regB : RegIx) (hr : s.jalrReading = .sequential) :
    jalrTarget s regB = linkWord s := by
  simp only [jalrTarget, hr]

theorem jalrTarget_of_oldRegB {s : State} (regB : RegIx) (hr : s.jalrReading = .oldRegB) :
    jalrTarget s regB = readReg s regB := by
  simp only [jalrTarget, hr]

/-- Under both readings `jalr` writes the link and retires from one address before its target, whatever `regA` (R150). -/
theorem exec_jalr_eq (regA regB : RegIx) (s : State) :
    exec (.jalr regA regB) s =
      retire ((writeReg s regB (linkWord s)).setPc (wordToInt (jalrTarget s regB) - 1)) := by
  cases hr : s.jalrReading with
  | sequential => simp only [exec, execJalr, hr, jalrSequential_eq, jalrTarget]
  | oldRegB => simp only [exec, execJalr, hr, jalrOldRegB, jalrTarget]

/-- `jalr` completes in every state: the link is in `regB`, `pc` is the target, and nothing else changes but the count. -/
theorem exec_jalr_completes (regA regB : RegIx) (s : State) : ∃ t, exec (.jalr regA regB) s = .next t ∧
    readReg t regB = linkWord s ∧ t.pc = (jalrTarget s regB).toInt ∧
    KeepsRegsBut regB s t ∧ KeepsMem s t ∧ Retired s t :=
  ⟨_, exec_jalr_eq regA regB s, readReg_writeReg_self s regB _, Int.sub_add_cancel _ _,
    fun _ hr => readReg_writeReg_other s _ hr, fun _ => rfl, rfl, rfl, keepsFixed_refl s⟩

/-- The link value of a fetched `jalr` is `pc + 1` as an unsigned number too: it lies in `[1, 65536]` (R150). -/
theorem toNat_linkWord {s : State} (hp : 0 ≤ s.pc ∧ s.pc ≤ 65535) : ((linkWord s).toNat : Int) = s.pc + 1 := by
  have hmod := bits32_toNat (s.pc + 1)
  rw [linkWord]
  omega

/-- Settles O6: `jalr` completes at its target, which is the link or the old `regB`, and the link of a fetched `pc` is
`pc + 1`, read signed or unsigned. -/
theorem jalrLinksUnderBothReadings : Obligations.JalrLinksUnderBothReadings := by
  unfold Obligations.JalrLinksUnderBothReadings
  refine ⟨fun w hw => decode_of_opcode_number (opc := .jalr) hw, fun regA regB s => ?_⟩
  obtain ⟨t, ht, hlink, hpc, hregs, hmem, hretired⟩ := exec_jalr_completes regA regB s
  have hseq (hr : s.jalrReading = .sequential) : t.pc = (linkWord s).toInt := by
    rw [hpc, jalrTarget_of_sequential regB hr]
  have hold (hr : s.jalrReading = .oldRegB) : t.pc = (readReg s regB).toInt := by
    rw [hpc, jalrTarget_of_oldRegB regB hr]
  refine ⟨t, ht, hlink, hseq, fun hr h0 h1 => ?_, hold, fun h0 h1 => ?_, hregs, hmem, hretired⟩
  · rw [hseq hr, toInt_linkWord ⟨h0, h1⟩]
  · rw [hlink, toNat_linkWord ⟨h0, h1⟩]

end Sys2Proof.Machine

/-! PROOFS of the statements about the O-type instructions (spec 44_o_type.md): the words of an opcode, with the refused
ones, and the states that `halt` and `noop` lead to. -/

namespace Sys2Proof

/-- A word with an opcode's number in bits 24:22 decodes to that opcode's instruction where bits 31:25 are 0, and is
refused elsewhere (R63, R85). -/
theorem decode_of_opcode_field {w : Word} {opc : Opcode} (h : w.toNat / 2 ^ 22 % 8 = (bitsOfOpcode opc).toNat) :
    (w.toNat < 2 ^ 25 → decode w = .ok (opc.instr (regOfBits (w.extractLsb' 19 3)) (regOfBits (w.extractLsb' 16 3))
      (regOfBits (w.extractLsb' 0 3)) (sext16 (w.extractLsb' 0 16)))) ∧
    (2 ^ 25 ≤ w.toNat → decode w = .error .upperBitsNonZero) := by
  refine ⟨fun hupper => decode_of_opcode_number (by omega), fun hupper => ?_⟩
  rw [decode_eq, if_neg (by omega)]

end Sys2Proof

namespace Sys2Proof.Machine

theorem exec_halt_eq (s : State) :
    exec .halt s = .next ((s.setInstrCount (s.instrCount + 1)).setPhase .halted) := rfl

theorem exec_noop_eq (s : State) : exec .noop s = retire s := rfl

/-- A Halted state is reported with the "machine halted" indication (R105). -/
theorem report_of_halted {s : State} (h : s.phase = .halted) : s.report = some ⟨s.obs, true⟩ := by
  simp only [State.report, h]

/-- Settles O7: `halt` changes the phase and the count alone, and a Halted state is reported and has no step. -/
theorem haltStopsTheCore : Obligations.HaltStopsTheCore := by
  unfold Obligations.HaltStopsTheCore
  exact ⟨fun w hw => decode_of_opcode_field (opc := .halt) hw, fun s =>
    ⟨_, exec_halt_eq s, rfl, rfl, rfl, fun _ => rfl, fun _ => rfl, keepsFixed_refl s, report_of_halted rfl,
      step_halted rfl⟩⟩

/-- Settles O8: `noop` retires from the state as it is. -/
theorem noopOnlyAdvances : Obligations.NoopOnlyAdvances := by
  unfold Obligations.NoopOnlyAdvances
  exact ⟨fun w hw => decode_of_opcode_field (opc := .noop) hw, fun s =>
    ⟨_, (exec_noop_eq s).trans (retire_eq s), rfl, fun _ => rfl, fun _ => rfl, rfl, rfl, keepsFixed_refl s⟩⟩

end Sys2Proof.Machine

/-! PROOFS of the statements about the faults (spec 60_exceptions.md): where each check of a step fails, in the order of
the stages, and what a fault leaves. -/

/-! ## The refused words (R85, R172) -/

namespace Sys2Proof

theorem upperBits_ne_zero_iff (w : Word) : w.extractLsb' 25 7 ≠ 0#7 ↔ 2 ^ 25 ≤ w.toNat := by
  have hzero : w.extractLsb' 25 7 = 0#7 ↔ w.toNat < 2 ^ 25 := beq_iff_eq.symm.trans (upperZero_iff w)
  rw [Ne, hzero, Nat.not_lt]

theorem decode_eq_error_iff (w : Word) : decode w = .error .upperBitsNonZero ↔ 2 ^ 25 ≤ w.toNat := by
  rw [decode_eq, ← Nat.not_lt]
  split
  · next h => exact iff_of_false nofun (not_not_intro h)
  · next h => exact iff_of_true rfl h

end Sys2Proof

/-! ## The fault of a step (R171 to R176) -/

namespace Sys2Proof.Machine

/-- An instruction faults only as an `lw` or `sw` whose address is outside the memory (R174). -/
theorem memoryAddressFault_of_exec {i : Instr} {s t : State} {c : FaultCause} (hs : s.phase = .running)
    (h : exec i s = .next t) (ht : t.phase = .faulted c) :
    ∃ regA regB offset, (i = .lw regA regB offset ∨ i = .sw regA regB offset) ∧
      c = .memoryAddressFault s.pc (effectiveAddress s regA offset) ∧
      ¬ (0 ≤ effectiveAddress s regA offset ∧ effectiveAddress s regA offset ≤ 65535) := by
  have running_ne : s.phase ≠ .faulted c := by simp [hs]
  rcases exec_cases i s with ⟨regA, regB, offset, hi, out, e⟩ | ⟨_, e⟩ | ⟨_, _, _, _, _, e⟩ | ⟨_, _, _, e⟩ |
      ⟨_, _, _, _, _, e⟩
  all_goals rw [e] at h; cases h
  · cases ht
    exact ⟨regA, regB, offset, hi, rfl, out⟩
  · cases ht
  all_goals exact absurd ht running_ne

/-- Settles O15: fetch, decode and execute are the three things a step of a running core does, and each raises its own
fault only. -/
theorem faultsComeInStageOrder : Obligations.FaultsComeInStageOrder := by
  unfold Obligations.FaultsComeInStageOrder
  intro s t c hs h ht
  rcases step_running hs with ⟨out, e⟩ | ⟨inside, hd, e⟩ | ⟨inside, i, hd, _, e⟩ <;> rw [e] at h
  · cases h
    cases ht
    exact .inl ⟨rfl, out⟩
  · cases h
    cases ht
    exact .inr (.inl ⟨rfl, inside, (decode_eq_error_iff _).1 hd⟩)
  · obtain ⟨regA, regB, offset, hi, hc, out⟩ := memoryAddressFault_of_exec hs h ht
    exact .inr (.inr ⟨regA, regB, offset, hi.imp (hd.trans <| congrArg _ ·) (hd.trans <| congrArg _ ·), hc, inside, out⟩)

/-- Settles O13: a `pc` outside the memory fails the first check, and the later checks raise other faults. -/
theorem fetchFaultsExactlyOutsideMemory : Obligations.FetchFaultsExactlyOutsideMemory := by
  unfold Obligations.FetchFaultsExactlyOutsideMemory
  refine fun s hs => ⟨fun hout => ?_, fun t p h ht => ?_⟩
  · rcases step_running hs with ⟨_, e⟩ | ⟨inside, _⟩ | ⟨inside, _⟩
    · exact e
    · omega
    · omega
  · rcases faultsComeInStageOrder s t _ hs h ht with ⟨hc, out⟩ | ⟨hc, _⟩ | ⟨_, _, _, _, hc, _⟩ <;> cases hc
    exact ⟨rfl, by omega⟩

/-- Settles O14: the word that a successful fetch answers is refused exactly where its bits 31:25 are not all 0, and the
other checks raise other faults. -/
theorem invalidOpcodeExactlyOnUpperBits : Obligations.InvalidOpcodeExactlyOnUpperBits := by
  unfold Obligations.InvalidOpcodeExactlyOnUpperBits
  refine fun s hs hmin hmax => ⟨fun hupper => ?_, fun t p w h ht => ?_⟩
  · exact step_of_fetch_of_decode_eq_error hs ((fetch_eq s).trans (if_pos ⟨hmin, hmax⟩))
      ((decode_eq_error_iff _).2 ((upperBits_ne_zero_iff _).1 hupper))
  · rcases faultsComeInStageOrder s t _ hs h ht with ⟨hc, _⟩ | ⟨hc, _, hupper⟩ | ⟨_, _, _, _, hc, _⟩ <;> cases hc
    exact ⟨rfl, rfl, (upperBits_ne_zero_iff _).2 hupper⟩

/-- A step of a running core that faults changes the phase and nothing else (R175). -/
theorem eq_setPhase_of_faulting_step {s t : State} {c : FaultCause} (hs : s.phase = .running) (h : step s = .next t)
    (ht : t.phase = .faulted c) : t = s.setPhase (.faulted c) := by
  cases stepEnds_of_step hs h with
  | fetchFault | dataFault => cases ht; rfl
  | halt => cases ht
  | retire _ _ _ _ _ retired => rw [retired.1, hs] at ht; cases ht

/-- Settles O16: the Faulted state is the end of its run, so the run cannot end in Halted as well. -/
theorem faultsArePreciseAndFinal : Obligations.FaultsArePreciseAndFinal := by
  unfold Obligations.FaultsArePreciseAndFinal
  intro s t c hs h ht
  have faulted : EndsFaulted t := ⟨0, t, c, (reaches_zero t t).2 rfl, ht⟩
  exact ⟨eq_setPhase_of_faulting_step hs h ht, step_faulted ht, by simp only [State.report, ht],
    fun hn => not_endsFaulted_of_endsNormally hn faulted⟩

end Sys2Proof.Machine

/-! PROOFS of the statements about reset and load (spec 70_reset_and_hazards.md): the image a load of good lines places, the
two ways a load fails, and the decimal integers that the lines spell. -/

/-! ## The lines before the end of the load (R190 to R192) -/

namespace Sys2Proof.Machine

/-- From the start of the load, good lines that fit are written from address 0, and the loop goes on after them. -/
theorem loadLines_of_spells {good : List Line} {vs : List Int} (rest : List Line) (h : List.Forall₂ LineSpells good vs)
    (hlen : good.length ≤ 65536) : loadLines (good ++ rest) 0 [] =
      loadLines rest good.length (Memory.storeFrom [] 0 (vs.map bits32)) := by
  have := loadLines_good rest 0 [] (lineWords_of_spells h) (by rwa [Nat.zero_add])
  rwa [Nat.zero_add] at this

/-- The load fails where the loop stops at the line after the good ones (R190). -/
theorem step_loading_fault {s : State} {good rest : List Line} {vs : List Int} {c : FaultCause} (hs : s.phase = .loading)
    (hin : s.input = good ++ rest) (hgood : List.Forall₂ LineSpells good vs) (hlen : good.length ≤ 65536)
    (hstop : ∀ m, loadLines rest good.length m = (m, good.length, some c)) :
    ∃ t, step s = .next t ∧ t.phase = .faulted c := by
  have hload := hin ▸ (loadLines_of_spells rest hgood hlen).trans (hstop _)
  exact ⟨_, (step_loading hs).trans (load_fault hload), rfl⟩

/-- A line that spells no integer, or one outside 32 bits, has no word (R191). -/
theorem lineWord_eq_none {l : Line} (h : ∀ v, decimalValue l = some v → v < -2147483648 ∨ 2147483647 < v) :
    lineWord l = none := by
  refine Option.eq_none_iff_forall_ne_some.2 fun w hw => ?_
  obtain ⟨v, ⟨hv, hmin, hmax⟩, -⟩ := (lineWord_eq_some_iff l w).1 hw
  have := h v hv
  omega

/-- Settles O35: the index is below the capacity, so the loop reads the bad line and finds no word. -/
theorem badLineFailsTheLoad : Obligations.BadLineFailsTheLoad := by
  unfold Obligations.BadLineFailsTheLoad
  intro s good rest bad vs hs hin hgood hlen hbad
  refine step_loading_fault hs hin hgood (by omega) fun m => ?_
  rw [loadLines, if_neg hlen.ne, lineWord_eq_none hbad]

/-- Settles O36: the check of the capacity comes before the line is read. -/
theorem longInputFailsTheLoad : Obligations.LongInputFailsTheLoad := by
  unfold Obligations.LongInputFailsTheLoad
  intro s good rest l vs hs hin hgood hlen
  refine step_loading_fault hs hin hgood (by omega) fun m => ?_
  rw [loadLines, if_pos hlen, hlen]

end Sys2Proof.Machine

/-! ## The image (R34, R35, R190) -/

namespace Sys2Proof.Machine

section
variable {s : State} {ws : List Word} (himage : s.mem = Memory.storeFrom [] 0 ws)
include himage

/-- The word of index `j` in the image is at address `j` (R34). -/
theorem wordAt_of_image (j : Nat) (h : j < ws.length) : wordAt s j = ws[j] := by
  have hlook := Memory.lookup_storeFrom [] 0 ws j h
  rw [Nat.zero_add] at hlook
  rw [wordAt, himage, hlook]

/-- An address after the image holds its draw (R35). -/
theorem wordAt_above_image {a : Nat} (h : ws.length ≤ a) : wordAt s a = Config.resetWord s.drawSeed a := by
  have hlook := Memory.lookup_storeFrom_above [] 0 ws (a := a) (by omega)
  rw [wordAt, himage, hlook, Memory.lookup]

end

/-- Settles O34: the loop reads every line and stops at none, so the load leaves their words as the image. -/
theorem loadPlacesTheImage : Obligations.LoadPlacesTheImage := by
  unfold Obligations.LoadPlacesTheImage
  intro s vs hs hgood hlen
  have hload : loadLines s.input 0 [] = (Memory.storeFrom [] 0 (vs.map bits32), s.input.length, none) := by
    simpa only [List.append_nil, loadLines] using loadLines_of_spells [] hgood (by rwa [hgood.length_eq])
  refine ⟨_, (step_loading hs).trans (load_ok hload), rfl, rfl, fun r => ?_, hgood.length_eq, rfl, fun j hj => ?_,
    fun a ha => ?_, rfl, rfl⟩
  · simp [readReg]
  · rw [wordAt_of_image rfl j (by rwa [List.length_map]), List.getElem_map]
  · exact wordAt_above_image rfl (by rwa [List.length_map])

end Sys2Proof.Machine

/-! ## The integer a line spells (R191) -/

namespace Sys2Proof.Machine

/-- Digits are read in base ten, each after ten times the number before it. -/
theorem digitsValue_map_digit (ds : List (Fin 10)) (acc : Nat) :
    digitsValue (ds.map fun d => Char.ofNat (48 + d.val)) acc = some (ds.foldl (fun acc d => 10 * acc + d.val) acc) := by
  induction ds generalizing acc with
  | nil => rfl
  | cons d ds ih => simp only [List.map_cons, digitsValue, digitValue_ofNat d.isLt, ih, List.foldl_cons]

/-- One digit or more is a natural number. -/
theorem naturalValue_map_digit {ds : List (Fin 10)} (h : ds ≠ []) :
    naturalValue (ds.map fun d => Char.ofNat (48 + d.val)) = some (ds.foldl (fun acc d => 10 * acc + d.val) 0) := by
  cases ds with
  | nil => exact absurd rfl h
  | cons d ds => exact digitsValue_map_digit (d :: ds) 0

/-- A digit is no sign, so a line that starts with one spells its natural number. -/
theorem decimalValue_of_digit {d n : Nat} {cs : Line} (hd : d < 10) (h : naturalValue (Char.ofNat (48 + d) :: cs) = some n) :
    decimalValue (Char.ofNat (48 + d) :: cs) = some (n : Int) := by
  obtain ⟨hminus, hplus⟩ := ofNat_digit_ne_sign hd
  rw [decimalValue, if_neg hminus, if_neg hplus, h]
  rfl

theorem decimalValue_plus {n : Nat} {cs : Line} (h : naturalValue cs = some n) :
    decimalValue ('+' :: cs) = some (n : Int) := by
  rw [decimalValue, if_neg (by decide), if_pos rfl, h]
  rfl

theorem decimalValue_minus {n : Nat} {cs : Line} (h : naturalValue cs = some n) :
    decimalValue ('-' :: cs) = some (-(n : Int)) := by
  rw [decimalValue, if_pos rfl, h]
  rfl

/-- Settles O37: the digits after the optional sign are a natural number, and the first of them is no sign itself. -/
theorem decimalValueReadsSignedDigits : Obligations.DecimalValueReadsSignedDigits := by
  unfold Obligations.DecimalValueReadsSignedDigits
  intro ds hds
  have hnat := naturalValue_map_digit hds
  refine ⟨?_, decimalValue_plus hnat, decimalValue_minus hnat⟩
  cases ds with
  | nil => exact absurd rfl hds
  | cons d ds => exact decimalValue_of_digit d.isLt hnat

end Sys2Proof.Machine
